-- ==== Sys2Proof/Word.lean ====
section
/-! DEFINITION. The widths of the block (spec 00_scope.md rule R11) and the four phases (spec 10_state.md rule R21).
Nothing here computes: what a test could show wrong stands in Decode.lean and in Machine/. -/

namespace Sys2Proof

/-- An input byte and a channel value: `BYTE_W = 8` bits (R11). -/
abbrev Byte := BitVec 8

/-- The register `len`: `LEN_W = 16` bits (R11, R22). -/
abbrev Len := BitVec 16

/-- The register `cnt`: `CNT_W = 10` bits (R11, R23). -/
abbrev Cnt := BitVec 10

/-- What `wr_chan` carries, a channel number: `CHAN_W = 10` bits (R11, R32). -/
abbrev Chan := BitVec 10

/-- The four phases of the frame state machine (R20, R21). The two-bit codes stand in Decode.lean. -/
inductive Phase where
  /-- The next byte is a candidate start marker. -/
  | waitStart
  /-- The next byte is the low byte of the length. -/
  | waitLenLow
  /-- The next byte is the high byte of the length. -/
  | waitLenHigh
  /-- The next byte is payload byte number `cnt`. -/
  | waitPayload
  deriving DecidableEq, Repr

end Sys2Proof
end

