-- ==== Sys2Proof/Config.lean ====
section
/-! DEFINITION. The compiled-in constants of the block (spec 00_scope.md rule R11, 10_state.md rule R27) and the values
the spec leaves free. A free value is an opaque constant with no body: nothing can be proved about which value it is. -/

namespace Sys2Proof.Config

/-- `MARKER`, the frame start marker (R11, R61). -/
def marker : Byte := 0xFF

/-- `MIN_LEN`, the smallest accepted length (R11). -/
abbrev minLen : Nat := 1

/-- `MAX_CH`, the number of channels and the largest accepted length (R11). -/
abbrev maxCh : Nat := 512

/-- FREE VALUE (log entries 4 and 5; spec 92_eei_decisions.md D14, 93_implementation_defined.md U1 and U12).
`universeBase n k` is what channel `k` of the universe holds while nothing has written it since epoch `n` began.
Epoch 0 is the power-on content, the spec's parameter `U_init` (R42); every write to a channel number that does not exist
begins a new epoch, because the spec lets the universe hold any value afterwards (U1). -/
opaque universeBase : Nat → Nat → Byte

/-- The spec's parameter `U_init : {1..512} → {0..255}`, constrained by nothing (R42, D14). -/
def uInit : Nat → Byte := universeBase 0

/-- FREE VALUE (log entry 6; spec 93_implementation_defined.md U15). The bits on `in_data` in a cycle in which no byte is
offered, where `n` is the number of events still to come. No operation looks at them. -/
opaque undrivenData : Nat → Byte

end Sys2Proof.Config
end

