-- ==== Sys2Proof/Machine/Operands.lean ====
section
/-! DEFINITION. Everything the block computes from an operand: the assembly of the length, the length validator, the
effective channel and the end-of-frame test (spec 43_stream_properties.md rule R118 lists all of it). -/

namespace Sys2Proof.Machine

/-- `len[7:0]`, the stored low byte of the length (R91, R92). -/
def lowByte (len : Len) : Byte := len.setWidth 8

/-- LENLO's `zext_16(b)` (R90). -/
def zextLen (b : Byte) : Len := b.setWidth 16

/-- `L = (zext_16(hi) << 8) | zext_16(lo)`: the length, low byte first (R62, R94). -/
def combineLen (hi lo : Byte) : Len := (hi.setWidth 16 <<< 8) ||| lo.setWidth 16

/-- The length validator: `1 <= L <= 512`, unsigned, on all 16 bits (R62, R91, R94). -/
def lenAccepted (L : Len) : Bool := decide (Config.minLen ≤ L.toNat) && decide (L.toNat ≤ Config.maxCh)

/-- The validator read off the two bytes, without a 16-bit comparison (R67). -/
def lenAcceptedBytes (hi lo : Byte) : Bool :=
  (hi == 0x00 && lo != 0x00) || hi == 0x01 || (hi == 0x02 && lo == 0x00)

/-- The effective channel of a payload byte, `cnt + 1` as a 10-bit sum (R63, R102). -/
def nextChan (cnt : Cnt) : Chan := cnt + 1

/-- The end-of-frame test `zext_16(cnt + 1) == len`: equality, not `>=` (R66 rows 8 and 9, R118). -/
def endOfFrame (cnt : Cnt) (len : Len) : Bool := (nextChan cnt).setWidth 16 == len

/-- How many payload bytes follow the header `0xFF, lo, hi`: the length when it is accepted, none when the header is
rejected (R64). -/
def payloadLength (lo hi : Byte) : Nat :=
  if lenAccepted (combineLen hi lo) then (combineLen hi lo).toNat else 0

/-- The bytes of a frame in arrival order (R60). -/
def frameBytes (lo hi : Byte) (payload : List Byte) : List Byte := Config.marker :: lo :: hi :: payload

/-- A channel number that exists: 1 to 512 (R40, R43). -/
def channelExists (k : Nat) : Bool := decide (1 ≤ k) && decide (k ≤ Config.maxCh)

end Sys2Proof.Machine
end

