-- ==== Sys2Proof/Machine/State.lean ====
section
/-! DEFINITION. The state of the machine as plain data: the three registers of the parser (spec 10_state.md rule R20),
the universe that the DMX transmitter holds and only the parser changes (20_memory.md rules R40, R41), the observation of
00_scope.md rule R10, and the free inputs of rule R8. -/

namespace Sys2Proof.Machine

/-- The universe as (channel, value) pairs: the cells that have been written in the present epoch. An unlisted channel
has not been written; what it holds is `Config.universeBase` (log entry 4). -/
abbrev Memory := List Host.Cell

/-- The one canonical form of a universe: channel numbers strictly rising, each from 1 to 512 (R40, R43). No entry can
equal what an unlisted channel reads as, since an unlisted channel reads as "not written". -/
abbrev Memory.wf (m : Memory) : Prop :=
  m.Pairwise (fun c d => c.1 < d.1) ∧ ∀ c ∈ m, 1 ≤ c.1 ∧ c.1 ≤ 512

/-- One channel write as it leaves the write port: `wr_chan` and `wr_data` in a cycle with `wr_valid = 1` (R12, R32). -/
structure Write where
  /-- `wr_chan`. -/
  chan : Chan
  /-- `wr_data`. -/
  value : Byte
  deriving DecidableEq, Repr

/-- What the outside does to the parser, in order of time (R8, R168). Each event but the last is one clock cycle. -/
inductive Event where
  /-- A cycle with `rst = 1` (R150). A byte offered in it is the oldest byte of the later events: it stays offered (D19). -/
  | reset
  /-- A cycle with `rst = 0` in which the host communication channel has no byte (R82). -/
  | idle
  /-- A cycle with `rst = 0` in which the byte is offered, and so accepted (R31). -/
  | byte (b : Byte)
  /-- The bytes `0xFF, lo, hi` and the payload, available together as in one poll of the source and with no reset among
  them (R9, R72). Where they are a frame read in `WaitStart` one step runs the FRAME row; else they are taken byte by byte
  (log entry 3). -/
  | frame (lo hi : Byte) (payload : List Byte)
  deriving DecidableEq, Repr

/-- The whole state. -/
structure State where
  /-- The register `phase` (R20, R21). -/
  phase : Phase
  /-- The register `len`, 16 bits (R20, R22). -/
  len : Len
  /-- The register `cnt`, 10 bits (R20, R23). -/
  cnt : Cnt
  /-- The universe `U`, state of the DMX transmitter (R40, R41): what has been written to it. -/
  channels : Memory
  /-- The MODEL's own counter: which family of free values the unwritten cells hold (log entry 5). -/
  epoch : Nat
  /-- The observation of R10 and D22: every write issued, in issue order (log entry 11). -/
  trace : List Write
  /-- The free inputs of R8, the earliest first (log entry 2). -/
  input : List Event
  deriving DecidableEq, Repr

/-- Why a step could stop with a fault. There is no constructor: "A model has no fault outcome for any input" (R130), so
nothing raises one, which is safe. -/
inductive Fault where
  deriving DecidableEq, Repr

/-- Why a step could be refused. -/
inductive Refusal where
  /-- An instruction without a meaning, raised by its arm of `exec` alone. Safe. No arm raises it: all ten rows of the
  table have their meaning. -/
  | notModelled (mnemonic : String)
  deriving DecidableEq, Repr

/-- The machine right after RESET: `S0 = (WaitStart, 0x0000, 0)` (R33, R152), nothing written to the universe yet, so that
every channel holds `U_init` (R42), no write observed, and no input placed: programs are loaded from outside (log
entry 2). -/
def State.reset : State where
  phase := .waitStart
  len := 0x0000
  cnt := 0
  channels := []
  epoch := 0
  trace := []
  input := []

end Sys2Proof.Machine
end

