-- ==== Sys2Proof/Machine/Ops.lean ====
section
/-! DEFINITION. The named operations over the universe and the registers, and `ChanWrite`, the one effect the parser has on
the outside (spec 00_scope.md rule R12, 20_memory.md rules R40 to R43). The block has no exception to take and none to
return from (60_exceptions.md rules R130, R138); what stands in their place is `State.resync`, the silent return to
`WaitStart` (10_state.md rule R25, 60_exceptions.md rule R137). -/

namespace Sys2Proof.Machine

/-! ### The universe -/

/-- What has been written to channel `k` last, or nothing. -/
def Memory.read (m : Memory) (k : Nat) : Option Byte :=
  match m with
  | [] => none
  | c :: rest => if k = c.1 then some c.2 else Memory.read rest k

/-- `U[k] <- v` with every other cell unchanged (R41). -/
def Memory.write (m : Memory) (k : Nat) (v : Byte) : Memory :=
  match m with
  | [] => [(k, v)]
  | c :: rest =>
    if k < c.1 then (k, v) :: c :: rest
    else if k = c.1 then (k, v) :: rest
    else c :: Memory.write rest k v

/-- What channel `k` holds: the value of the last write to it, or the free value it held before (R41, R42). The parser
never reads it (R46); this is the observation of the final universe (R10). -/
def State.readChannel (s : State) (k : Nat) : Byte :=
  match s.channels.read k with
  | some v => v
  | none => Config.universeBase s.epoch k

/-! ### The registers -/

/-- `phase <- p` (R12). -/
def State.setPhase (s : State) (p : Phase) : State := { s with phase := p }

/-- `len <- v` (R12). -/
def State.setLen (s : State) (v : Len) : State := { s with len := v }

/-- `cnt <- v` (R12). -/
def State.setCnt (s : State) (v : Cnt) : State := { s with cnt := v }

/-- The input that remains. -/
def State.setInput (s : State) (es : List Event) : State := { s with input := es }

/-- The return to `WaitStart` when a frame completes or is judged malformed: only `phase` changes, `len` and `cnt` keep
what they held (R25, R137). -/
def State.resync (s : State) : State := s.setPhase .waitStart

/-! ### The write port -/

/-- `ChanWrite(ch, v)` (R12, R41): one write is issued. A channel that exists takes the value. A channel number that does
not exist, which only states that no run from reset reaches can issue, leaves the universe at any value: a new epoch of
free values begins (spec 93_implementation_defined.md U1; log entry 5). -/
def State.chanWrite (s : State) (ch : Chan) (v : Byte) : State :=
  if channelExists ch.toNat then
    { s with trace := s.trace ++ [⟨ch, v⟩], channels := s.channels.write ch.toNat v }
  else
    { s with trace := s.trace ++ [⟨ch, v⟩], channels := [], epoch := s.epoch + 1 }

/-- The store of a payload byte, which DATA and DATA_LAST share: the byte goes to channel `cnt + 1`, and the count takes
that value at the same edge (R100, R101, R102). -/
def State.storePayload (s : State) (b : Byte) : State :=
  (s.chanWrite (nextChan s.cnt) b).setCnt (nextChan s.cnt)

end Sys2Proof.Machine
end

