-- ==== Sys2Proof/Machine/Length.lean ====
section
/-! DEFINITION. LENLO, LENHI_OK and LENHI_REJ (spec 41_length.md rules R90 to R92). -/

namespace Sys2Proof.Machine

/-- LENLO: the zero-extended byte is the length so far (R90). -/
def execLenlo (b : Byte) (s : State) : Host.Outcome State Fault Refusal :=
  .next ((s.setLen (zextLen b)).setPhase .waitLenHigh)

/-- LENHI_OK: the combined length is kept, the count cleared, and payload follows (R91). -/
def execLenhiOk (b : Byte) (s : State) : Host.Outcome State Fault Refusal :=
  .next (((s.setLen (combineLen b (lowByte s.len))).setCnt 0).setPhase .waitPayload)

/-- LENHI_REJ: the combined length is kept, the count not written, and the header discarded (R92). -/
def execLenhiRej (b : Byte) (s : State) : Host.Outcome State Fault Refusal :=
  .next (s.setLen (combineLen b (lowByte s.len))).resync

end Sys2Proof.Machine
end

