-- ==== Sys2Proof/Machine/Payload.lean ====
section
/-! DEFINITION. DATA and DATA_LAST (spec 42_payload.md rules R100 and R101). -/

namespace Sys2Proof.Machine

/-- DATA: the byte is written to channel `cnt + 1` and counted; the phase and the length stay (R100). -/
def execData (b : Byte) (s : State) : Host.Outcome State Fault Refusal := .next (s.storePayload b)

/-- DATA_LAST: the byte is written to channel `cnt + 1` and counted, and the frame ends (R101). -/
def execDataLast (b : Byte) (s : State) : Host.Outcome State Fault Refusal := .next (s.storePayload b).resync

end Sys2Proof.Machine
end

