-- ==== Sys2Proof/Machine/Reset.lean ====
section
/-! DEFINITION. RESET (spec 70_reset_and_hazards.md rule R150). -/

namespace Sys2Proof.Machine

/-- RESET: the registers go to `S0`; the universe, and the writes already issued, stay (R150, R42, R104). -/
def execReset (s : State) : Host.Outcome State Fault Refusal :=
  .next (((s.setPhase .waitStart).setLen 0x0000).setCnt 0)

end Sys2Proof.Machine
end

