-- ==== Sys2Proof/Machine/Stream.lean ====
section
/-! DEFINITION. The byte-step function `Step` and its fold `Run` (spec 43_stream_properties.md rules R110 and R111), written
from the text of R110 and from no operation of the other files, and the FRAME row of the table over them. -/

namespace Sys2Proof.Machine

/-- `Step(S, b)` of R110, together with the effect of the write it returns. -/
def State.stepByte (s : State) (b : Byte) : State :=
  match s.phase with
  | .waitStart => if b = Config.marker then { s with phase := .waitLenLow, len := 0x0000, cnt := 0 } else s
  | .waitLenLow => { s with phase := .waitLenHigh, len := b.setWidth 16 }
  | .waitLenHigh =>
    if combineLen b (lowByte s.len) = 0 ∨ 512 < (combineLen b (lowByte s.len)).toNat then
      { s with phase := .waitStart, len := combineLen b (lowByte s.len) }
    else { s with phase := .waitPayload, len := combineLen b (lowByte s.len), cnt := 0 }
  | .waitPayload =>
    if (s.cnt + 1).setWidth 16 = s.len then { s.chanWrite (s.cnt + 1) b with phase := .waitStart, cnt := s.cnt + 1 }
    else { s.chanWrite (s.cnt + 1) b with cnt := s.cnt + 1 }

/-- `Run(S, bs)` of R111: the trace of the state grows by the write trace of the run. -/
def State.runBytes (s : State) (bs : List Byte) : State :=
  match bs with
  | [] => s
  | b :: rest => (s.stepByte b).runBytes rest

/-- FRAME: the run of the frame's bytes, marker first (R60, R64, R115, R116). Read in `WaitStart` it applies the payload or
rejects the header; read in another phase its bytes are data like any others (R70, R133). -/
def execFrame (lo hi : Byte) (payload : List Byte) (s : State) : Host.Outcome State Fault Refusal :=
  .next (s.runBytes (frameBytes lo hi payload))

end Sys2Proof.Machine
end

