-- ==== Sys2Proof/Machine/Sync.lean ====
section
/-! DEFINITION. IDLE, START and SKIP (spec 40_sync.md rules R80 to R82). -/

namespace Sys2Proof.Machine

/-- IDLE: nothing changes (R82). -/
def execIdle (s : State) : Host.Outcome State Fault Refusal := .next s

/-- START: the length and the count are cleared, and the next byte is the length's low byte (R80). -/
def execStart (s : State) : Host.Outcome State Fault Refusal :=
  .next (((s.setLen 0x0000).setCnt 0).setPhase .waitLenLow)

/-- SKIP: the byte is dropped and nothing changes, whatever its value (R81). -/
def execSkip (_b : Byte) (s : State) : Host.Outcome State Fault Refusal := .next s

end Sys2Proof.Machine
end

