-- ==== Sys2Proof/Syntax.lean ====
section
/-! DEFINITION. The instructions: one constructor per row of spec/opcode_table.json, in the table's order
(spec 30_encoding.md rules R60, R66, R73). -/

namespace Sys2Proof

/-- What plays the part of an instruction is one clock cycle's operation (R3, R66); the tenth row of the table, `FRAME`,
is the frame on the wire (R60), a whole run of nine-operation cycles. An operand `b` is the accepted byte. -/
inductive Instr where
  /-- RESET: `rst` is 1 (R150). -/
  | reset
  /-- IDLE: no byte is offered (R82). -/
  | idle
  /-- START: the marker `0xFF` is read in `WaitStart` (R80). -/
  | start
  /-- SKIP: any other byte is read in `WaitStart` (R81). -/
  | skip (b : Byte)
  /-- LENLO: the low byte of the length (R90). -/
  | lenlo (b : Byte)
  /-- LENHI_OK: the high byte of the length completes a length in `1..512` (R91). -/
  | lenhiOk (b : Byte)
  /-- LENHI_REJ: the high byte of the length completes a length of 0 or of more than 512 (R92). -/
  | lenhiRej (b : Byte)
  /-- DATA: a payload byte that is not the last of its frame (R100). -/
  | data (b : Byte)
  /-- DATA_LAST: the last payload byte of a frame (R101). -/
  | dataLast (b : Byte)
  /-- FRAME: the bytes `0xFF, lo, hi` and the payload, as the host sends them (R60, R64, R72). -/
  | frame (lo hi : Byte) (payload : List Byte)
  deriving DecidableEq, Repr

end Sys2Proof
end

