-- ==== Sys2Proof/Machine/Dispatch.lean ====
section
/-! DEFINITION. One arm per row of spec/opcode_table.json. -/

namespace Sys2Proof.Machine

def exec (i : Instr) (s : State) : Host.Outcome State Fault Refusal :=
  match i with
  | .reset => Sys2Proof.Machine.execReset s
  | .idle => Sys2Proof.Machine.execIdle s
  | .start => Sys2Proof.Machine.execStart s
  | .skip b => Sys2Proof.Machine.execSkip b s
  | .lenlo b => Sys2Proof.Machine.execLenlo b s
  | .lenhiOk b => Sys2Proof.Machine.execLenhiOk b s
  | .lenhiRej b => Sys2Proof.Machine.execLenhiRej b s
  | .data b => Sys2Proof.Machine.execData b s
  | .dataLast b => Sys2Proof.Machine.execDataLast b s
  | .frame lo hi payload => Sys2Proof.Machine.execFrame lo hi payload s

end Sys2Proof.Machine
end

