-- ==== Sys2Proof/WellFormed.lean ====
section
/-! DEFINITION. Which instructions the encoding can hold: an operand byte that the operation's guard of spec
30_encoding.md rule R66 can meet, and a frame whose payload is as long as its header says (R64). -/

namespace Sys2Proof

/-- Why an instruction is not one the encoding holds. -/
inductive IllFormed where
  /-- SKIP of `0xFF`: that byte in `WaitStart` is START (R66 row 4). -/
  | skipOfMarker
  /-- LENHI_OK with a high byte above 2: no stored low byte makes the length at most 512 (R67). -/
  | highByteNeverAccepted
  /-- LENHI_REJ with the high byte 1: lengths 256 to 511 are all accepted (R67). -/
  | highByteNeverRejected
  /-- FRAME whose payload is not as long as its length field says (R64, R72). -/
  | payloadLengthWrong
  deriving DecidableEq, Repr

/-- The check, one line per instruction. -/
def Instr.check (i : Instr) : Option IllFormed :=
  match i with
  | .reset => none
  | .idle => none
  | .start => none
  | .skip b => if b = Config.marker then some .skipOfMarker else none
  | .lenlo _ => none
  | .lenhiOk b => if 2 < b.toNat then some .highByteNeverAccepted else none
  | .lenhiRej b => if b = 1 then some .highByteNeverRejected else none
  | .data _ => none
  | .dataLast _ => none
  | .frame lo hi p => if p.length = Machine.payloadLength lo hi then none else some .payloadLengthWrong

/-- An instruction the encoding holds. A FRAME with a rejected header and no payload is the spec's `header(L)` (R72): it
is encodable, and its three bytes are consumed and rejected (R64). -/
abbrev WellFormed (i : Instr) : Prop := i.check = none

end Sys2Proof
end

