-- ==== Sys2Proof/Decode.lean ====
section
/-! DEFINITION. The decoder and, after it, the encoder. Two encodings (spec 30_encoding.md): the 12-bit cycle word of rules
R65 and R66, which selects one of nine operations together with a guard on `len` and `cnt`, and the frame on the wire of
rule R60. The operation table of R66 and R73 stands here a second time, row by row, as `opRows`. -/

namespace Sys2Proof

/-- The two-bit code of a phase (R21). -/
def Phase.code (p : Phase) : BitVec 2 :=
  match p with
  | .waitStart => 0b00
  | .waitLenLow => 0b01
  | .waitLenHigh => 0b10
  | .waitPayload => 0b11

/-- The phase of a two-bit code; all four codes are used (R21). -/
def Phase.ofCode (c : BitVec 2) : Phase :=
  if c = 0b00 then .waitStart
  else if c = 0b01 then .waitLenLow
  else if c = 0b10 then .waitLenHigh
  else .waitPayload

/-- The cycle word `{rst, in_valid, phase, in_data}` by its fields (R65). -/
structure CycleWord where
  /-- Bit 11. -/
  rst : Bool
  /-- Bit 10. -/
  inValid : Bool
  /-- Bits 9:8. -/
  phase : Phase
  /-- Bits 7:0. -/
  inData : Byte
  deriving DecidableEq, Repr

/-- The fields of twelve bits (R65). -/
def CycleWord.ofBits (w : BitVec 12) : CycleWord where
  rst := w.getLsbD 11
  inValid := w.getLsbD 10
  phase := Phase.ofCode (w.extractLsb' 8 2)
  inData := w.extractLsb' 0 8

/-- The twelve bits, most significant field first (R65). -/
def CycleWord.toBits (c : CycleWord) : BitVec 12 :=
  BitVec.ofBool c.rst ++ (BitVec.ofBool c.inValid ++ (c.phase.code ++ c.inData))

/-- The operation of a cycle: the map of R66, total on every cycle word and every `len` and `cnt` (R68). -/
def decodeCycle (c : CycleWord) (len : Len) (cnt : Cnt) : Instr :=
  if c.rst then .reset
  else if c.inValid then
    match c.phase with
    | .waitStart => if c.inData = Config.marker then .start else .skip c.inData
    | .waitLenLow => .lenlo c.inData
    | .waitLenHigh =>
      if Machine.lenAccepted (Machine.combineLen c.inData (Machine.lowByte len)) then .lenhiOk c.inData
      else .lenhiRej c.inData
    | .waitPayload => if Machine.endOfFrame cnt len then .dataLast c.inData else .data c.inData
  else .idle

/-- Why bytes on the wire are no complete frame. The parser itself refuses nothing (R69): these name what the decoder of
the FRAME row did not find. -/
inductive DecodeError where
  /-- The first byte is not the marker `0xFF` (R61). -/
  | noMarker
  /-- Fewer than the three bytes of a header (R60). -/
  | truncatedHeader
  /-- Fewer payload bytes than an accepted length says (R64). -/
  | truncatedPayload
  /-- More bytes than the one frame has (R64). -/
  | trailingBytes
  deriving DecidableEq, Repr

/-- The frame at the head of a byte list and the bytes after it. A rejected header is exactly three bytes long (R64). -/
def decodeWire (bs : List Byte) : Except DecodeError (Instr × List Byte) :=
  match bs with
  | m :: rest =>
    if m = Config.marker then
      match rest with
      | lo :: hi :: more =>
        if Machine.payloadLength lo hi ≤ more.length then
          .ok (.frame lo hi (more.take (Machine.payloadLength lo hi)), more.drop (Machine.payloadLength lo hi))
        else .error .truncatedPayload
      | _ => .error .truncatedHeader
    else .error .noMarker
  | [] => .error .truncatedHeader

/-- An instruction as bits: a cycle word, or bytes on the wire (R73: formats `CW12` and `WIRE`). -/
inductive Encoding where
  /-- Format `CW12`. -/
  | cycle (w : BitVec 12)
  /-- Format `WIRE`. -/
  | wire (bs : List Byte)
  deriving DecidableEq, Repr

/-- The decoder: a cycle word with the two registers its guard may read, or exactly the bytes of one frame. -/
def decode (e : Encoding) (len : Len) (cnt : Cnt) : Except DecodeError Instr :=
  match e with
  | .cycle w => .ok (decodeCycle (CycleWord.ofBits w) len cnt)
  | .wire bs =>
    match decodeWire bs with
    | .ok (i, []) => .ok i
    | .ok (_, _ :: _) => .error .trailingBytes
    | .error e => .error e

/-- Byte `i` of a table word: the first byte in the low bits, zero above the bits given. -/
def tableByte (nbits w i : Nat) : Byte := if 8 * i < nbits then BitVec.ofNat 8 (w >>> (8 * i)) else 0

/-- The bytes that a table word stands for on the wire: at least its own bits, and as far as the header read from it says
(R64); zeros after the bits given. -/
def wireBytes (nbits w : Nat) : List Byte :=
  (List.range (max ((nbits + 7) / 8) (3 + Machine.payloadLength (tableByte nbits w 1) (tableByte nbits w 2)))).map
    (tableByte nbits w)

/-- Whether a table width is that of a cycle word: twelve bits, two whole bytes (R73). -/
def isCycleWidth (nbits : Nat) : Bool := decide (8 < nbits) && decide (nbits ≤ 16)

/-- What the decoder reads from the bits of a table word. A cycle word's guard reads `len` and `cnt`, which are no bits of
the word; as every bit above the word is 0, they are read as 0, which is what they hold after reset (log entry 9). -/
def decodeTableWord (nbits w : Nat) : Option Instr :=
  if isCycleWidth nbits then
    if w < 2 ^ 12 then some (decodeCycle (CycleWord.ofBits (BitVec.ofNat 12 w)) 0 0) else none
  else
    match decodeWire (wireBytes nbits w) with
    | .ok (i, _) => some i
    | .error _ => none

/-! ### The encoder -/

/-- The bits of an instruction, written from the patterns of R66 with every bit that is not looked at 0, and from the
listing of R60. -/
def encode (i : Instr) : Encoding :=
  match i with
  | .reset => .cycle 0x800
  | .idle => .cycle 0x000
  | .start => .cycle 0x4FF
  | .skip b => .cycle (0x4#4 ++ b)
  | .lenlo b => .cycle (0x5#4 ++ b)
  | .lenhiOk b => .cycle (0x6#4 ++ b)
  | .lenhiRej b => .cycle (0x6#4 ++ b)
  | .data b => .cycle (0x7#4 ++ b)
  | .dataLast b => .cycle (0x7#4 ++ b)
  | .frame lo hi p => .wire (Machine.frameBytes lo hi p)

/-- The guard of an instruction's row, over its byte and the registers `len` and `cnt` (R66). -/
def Instr.guardHolds (i : Instr) (len : Len) (cnt : Cnt) : Bool :=
  match i with
  | .reset => true
  | .idle => true
  | .start => true
  | .skip b => b != Config.marker
  | .lenlo _ => true
  | .lenhiOk b => Machine.lenAccepted (Machine.combineLen b (Machine.lowByte len))
  | .lenhiRej b => !Machine.lenAccepted (Machine.combineLen b (Machine.lowByte len))
  | .data _ => !Machine.endOfFrame cnt len
  | .dataLast _ => Machine.endOfFrame cnt len
  | .frame _ _ _ => true

/-! ### The operation table, row by row -/

/-- One row of the operation map (R66, R73): its match and mask, and the operation it selects for the byte in bits 7:0.
The row's guard is `Instr.guardHolds` of that operation. -/
structure OpRow where
  /-- The name in the table. -/
  mnemonic : String
  /-- The pattern's fixed bits. -/
  matchBits : BitVec 12
  /-- Which bits the pattern fixes. -/
  mask : BitVec 12
  /-- The operation, given the accepted byte. -/
  build : Byte → Instr

/-- The nine rows in ascending priority (R66). -/
def opRows : List OpRow :=
  [ ⟨"RESET", 0x800, 0x800, fun _ => .reset⟩,
    ⟨"IDLE", 0x000, 0xC00, fun _ => .idle⟩,
    ⟨"START", 0x4FF, 0xFFF, fun _ => .start⟩,
    ⟨"SKIP", 0x400, 0xF00, .skip⟩,
    ⟨"LENLO", 0x500, 0xF00, .lenlo⟩,
    ⟨"LENHI_OK", 0x600, 0xF00, .lenhiOk⟩,
    ⟨"LENHI_REJ", 0x600, 0xF00, .lenhiRej⟩,
    ⟨"DATA", 0x700, 0xF00, .data⟩,
    ⟨"DATA_LAST", 0x700, 0xF00, .dataLast⟩ ]

/-- The row's pattern matches the word (R73: `(cw & mask) == match`). -/
def OpRow.matchesWord (r : OpRow) (w : BitVec 12) : Bool := (w &&& r.mask) == r.matchBits

/-- The row is selected by the word and the two registers: its pattern matches and its guard holds (R66). -/
def OpRow.selects (r : OpRow) (w : BitVec 12) (len : Len) (cnt : Cnt) : Bool :=
  r.matchesWord w && (r.build (w.extractLsb' 0 8)).guardHolds len cnt

/-- The decoder that R73 asks for: the first row, in ascending priority, that is selected. -/
def decodeByTable (w : BitVec 12) (len : Len) (cnt : Cnt) : Option Instr :=
  (opRows.find? (fun r => r.selects w len cnt)).map (fun r => r.build (w.extractLsb' 0 8))

end Sys2Proof
end

