-- ==== Sys2Proof/Machine/Fetch.lean ====
section
/-! DEFINITION. What corresponds to fetching: the inputs of a cycle and the acceptance of a byte (spec 10_state.md rule R31,
20_memory.md rule R52), and the cycle word they make with the phase (30_encoding.md rule R65). -/

namespace Sys2Proof.Machine

/-- The byte on offer: the oldest one not yet accepted, if the channel has any (R31). A reset does not take it (R150). -/
def offered (es : List Event) : Option Byte :=
  match es with
  | [] => none
  | .reset :: rest => offered rest
  | .idle :: _ => none
  | .byte b :: _ => some b
  | .frame _ _ _ :: _ => some Config.marker

/-- Whether `rst` is 1 in this cycle. -/
def resetNow (es : List Event) : Bool :=
  match es with
  | .reset :: _ => true
  | _ => false

/-- The cycle word of this cycle (R65). -/
def State.cycleWord (s : State) : CycleWord where
  rst := resetNow s.input
  inValid := (offered s.input).isSome
  phase := s.phase
  inData := (offered s.input).getD (Config.undrivenData s.input.length)

/-- The frame that stands whole at the head of the input while a marker is awaited: the FRAME row is read in `WaitStart`,
and nothing but a frame of the length its header says is one (R60, R64; log entry 3). -/
def State.wholeFrame (s : State) : Option Instr :=
  match s.phase, s.input with
  | .waitStart, .frame lo hi p :: _ => (decode (.wire (frameBytes lo hi p)) s.len s.cnt).toOption
  | _, _ => none

/-- The instruction of this step: a whole frame where one stands there, else the operation of this cycle (R66). -/
def State.fetch (s : State) : Instr :=
  match s.wholeFrame with
  | some i => i
  | none => decodeCycle s.cycleWord s.len s.cnt

/-- The events left after this step. A reset takes one event and leaves the offered byte (R150); an idle cycle or an
accepted byte takes one; a frame that is not taken whole gives its first byte and leaves the others as single bytes. After
the last event no byte is offered and no reset comes (D22; log entry 2). -/
def State.advance (s : State) : State :=
  match s.wholeFrame, s.input with
  | none, .frame lo hi p :: rest => s.setInput ((lo :: hi :: p).map .byte ++ rest)
  | _, es => s.setInput es.tail

/-- The events that put a cycle word's inputs on the ports. -/
def cycleEvents (c : CycleWord) : List Event :=
  if c.rst then .reset :: (if c.inValid then [.byte c.inData] else [])
  else if c.inValid then [.byte c.inData] else [.idle]

/-- The state whose next step meets the table word `w`: the word's inputs come first, and where a byte is accepted the
phase is the word's, since the phase is two bits of the word (R65). A FRAME stands whole and is read in `WaitStart`. -/
def State.presentWord (s : State) (nbits w : Nat) : State :=
  if isCycleWidth nbits then
    let c := CycleWord.ofBits (BitVec.ofNat 12 w)
    (if c.inValid && !c.rst then s.setPhase c.phase else s).setInput (cycleEvents c ++ s.input)
  else
    match decodeWire (wireBytes nbits w) with
    | .ok (.frame lo hi p, _) => (s.setPhase .waitStart).setInput (.frame lo hi p :: s.input)
    | _ => s.setInput ((wireBytes nbits w).map .byte ++ s.input)

end Sys2Proof.Machine
end

