-- ==== Sys2Proof/Machine/Step.lean ====
section
/-! DEFINITION. One step: the instruction that the inputs and the registers select, run on the state whose input has moved
on (spec 30_encoding.md rules R65 and R66). For every event but a whole frame it is one clock cycle. -/

namespace Sys2Proof.Machine

/-- One step of the machine. -/
def step (s : State) : Host.Outcome State Fault Refusal := exec s.fetch s.advance

/-- The state whose next step runs the table word `w`. -/
def State.withFetchWord (s : State) (nbits w : Nat) : State := s.presentWord nbits w

end Sys2Proof.Machine
end

