-- ==== Sys2Proof/Machine/Flags.lean ====
section
/-! DEFINITION. The one status indication, `frame_active` (spec 10_state.md rule R26), and the labels of the error classes
(60_exceptions.md rule R130), which drive no signal and hold no state. -/

namespace Sys2Proof.Machine

/-- `frame_active = (phase == WaitPayload)`; no register of its own (R26). -/
def frameActive (p : Phase) : Bool := p == .waitPayload

/-- The three classes of bad input. They are labels: no code, no register, no effect (R130). -/
inductive ErrorClass where
  /-- Malformed length (R131). -/
  | eLen
  /-- Stream desynchronisation (R132). -/
  | eDesync
  /-- Stalled frame: a run of IDLE outside `WaitStart`, which the parser does not detect (R133). -/
  | eStall
  deriving DecidableEq, Repr

/-- What an operation notes (R136, R148): E_LEN is exactly LENHI_REJ, E_DESYNC exactly SKIP. A FRAME with a rejected header
runs one LENHI_REJ (R116). E_STALL is noted by no operation (R133). -/
def noteOf (i : Instr) : Option ErrorClass :=
  match i with
  | .reset => none
  | .idle => none
  | .start => none
  | .skip _ => some .eDesync
  | .lenlo _ => none
  | .lenhiOk _ => none
  | .lenhiRej _ => some .eLen
  | .data _ => none
  | .dataLast _ => none
  | .frame lo hi _ => if lenAccepted (combineLen hi lo) then none else some .eLen

end Sys2Proof.Machine
end

