-- ==== Sys2Proof/Machine/Ports.lean ====
section
/-! DEFINITION. The output ports, combinational in the registers and the inputs of the same cycle (spec 10_state.md rule
R32), and the one-hot view of the write port (20_memory.md rule R54). -/

namespace Sys2Proof.Machine

/-- The outputs of one cycle. -/
structure Outputs where
  /-- `in_ready`. -/
  inReady : Bool
  /-- The write port: `none` is `wr_valid = 0`, where `wr_chan` and `wr_data` have no meaning (R32, D6; log entry 7). -/
  write : Option Write
  /-- `frame_active`. -/
  frameActive : Bool
  deriving DecidableEq, Repr

/-- `wr_valid` (R32). -/
def Outputs.wrValid (o : Outputs) : Bool := o.write.isSome

/-- The output equations of R32 for the cycle that begins in this state. -/
def State.outputs (s : State) : Outputs where
  inReady := !s.cycleWord.rst
  write :=
    if !s.cycleWord.rst && s.cycleWord.inValid && (s.phase == .waitPayload) then
      some ⟨s.cnt + 1, s.cycleWord.inData⟩
    else none
  frameActive := Machine.frameActive s.phase

/-- The select line `sel[k]` of the one-hot view; there are lines for 1 to 512 only (R54). -/
def Outputs.sel (o : Outputs) (k : Nat) : Bool :=
  match o.write with
  | some w => channelExists k && (w.chan.toNat == k)
  | none => false

end Sys2Proof.Machine
end

