-- ==== Sys2Proof/Safety.lean ====
section
/-! DEFINITION. What counts as a safe run, in the terms the statements use: the reachable states of spec
43_stream_properties.md rule R112, the range of channels of rule R114, and the observation of 00_scope.md rule R10. -/

namespace Sys2Proof.Machine

/-- The condition of R112 on the three registers, phase by phase. -/
def registersReachable (p : Phase) (len : Len) (cnt : Cnt) : Bool :=
  match p with
  | .waitStart =>
    (cnt == 0 && (len == 0 || decide (513 ≤ len.toNat))) ||
      (decide (1 ≤ len.toNat) && decide (len.toNat ≤ 512) && decide (cnt.toNat = len.toNat))
  | .waitLenLow => len == 0 && cnt == 0
  | .waitLenHigh => decide (len.toNat ≤ 255) && cnt == 0
  | .waitPayload => decide (1 ≤ len.toNat) && decide (len.toNat ≤ 512) && decide (cnt.toNat < len.toNat)

/-- The invariant of the machine. -/
structure State.Inv (s : State) : Prop where
  /-- The registers are reachable (R112). -/
  registers : registersReachable s.phase s.len s.cnt = true
  /-- The universe is in its canonical form. -/
  universeWf : s.channels.wf
  /-- Every write issued went to a channel that exists (R114). -/
  writesInRange : ∀ w ∈ s.trace, 1 ≤ w.chan.toNat ∧ w.chan.toNat ≤ 512

/-- The universe that a list of writes makes of a first content: the fold of `ChanWrite` over the trace (R10, R41). -/
def foldWrites (base : Nat → Byte) (ws : List Write) : Nat → Byte :=
  ws.foldl (fun u w k => if k = w.chan.toNat then w.value else u k) base

/-- The writes of consecutive payload bytes, the first of them to channel `first` (R49, R63). -/
def payloadWrites (first : Nat) (bs : List Byte) : List Write :=
  bs.mapIdx (fun i b => ⟨BitVec.ofNat 10 (first + i), b⟩)

/-- The effect of `ChanWrite(ch, v)` from `s` to `t` on a channel that exists: that cell takes the value and every other
cell keeps its own (R41). -/
def channelUpdated (s t : State) (ch : Chan) (v : Byte) : Prop :=
  t.epoch = s.epoch ∧ t.readChannel ch.toNat = v ∧ ∀ k, k ≠ ch.toNat → t.readChannel k = s.readChannel k

/-- Every cell of the universe is as before. -/
def universeKept (s t : State) : Prop := t.epoch = s.epoch ∧ ∀ k, t.readChannel k = s.readChannel k

/-- The parser's three registers agree: all of the block's own state (R20). -/
def sameRegisters (s t : State) : Prop := s.phase = t.phase ∧ s.len = t.len ∧ s.cnt = t.cnt

/-- One cycle of input: every event but a whole frame (R65). -/
def Event.isCycle (e : Event) : Bool :=
  match e with
  | .reset => true
  | .idle => true
  | .byte _ => true
  | .frame _ _ _ => false

/-- Single-byte events for a byte list. -/
def byteEvents (bs : List Byte) : List Event := bs.map .byte

end Sys2Proof.Machine
end

