-- ==== Sys2Proof/Certificates/Slice0/Obligations.lean ====
section
/-! DEFINITION. The statements for the provers. Each docstring names the rule of spec/ it formalises. A clause that rests
on the model's own choice names the log entry (notes/assumptions/<n>.md). -/

open Sys2Proof Sys2Proof.Machine

/-! ### One operation at a time: what it does, when it is selected, and what the ports show -/

/-- R150 (with the spec's decisions D2, D13, D19): RESET sets the three registers and nothing else; it is selected by `rst`
whatever else is on the ports; no write, no byte taken, and the byte on offer stays on offer. -/
def Obligations.ResetClearsRegistersOnly : Prop :=
  ∀ (s : State) (rest : List Event),
    exec .reset s = .next { s with phase := .waitStart, len := 0x0000, cnt := 0 } ∧
    (s.input = .reset :: rest →
      s.fetch = .reset ∧ step s = exec .reset { s with input := rest } ∧
      s.outputs = { inReady := false, write := none, frameActive := frameActive s.phase } ∧
      offered rest = offered s.input)

/-- R33 and R152: the registers and the outputs right after reset (the values of `len` and `cnt` are the spec's decision
D13). -/
def Obligations.ResetStateHoldsTheStatedValues : Prop :=
  State.reset.phase = .waitStart ∧ State.reset.len = 0x0000 ∧ State.reset.cnt = 0 ∧
    frameActive State.reset.phase = false ∧ State.reset.outputs.wrValid = false ∧
    ∀ k, State.reset.readChannel k = Config.uInit k

/-- R82 (with the spec's decision D3): a cycle without a byte changes nothing, in every phase; `frame_active` keeps the value
the phase gives it. -/
def Obligations.IdleChangesNothing : Prop :=
  ∀ (s : State) (rest : List Event),
    exec .idle s = .next s ∧
    (s.input = .idle :: rest →
      s.fetch = .idle ∧ step s = exec .idle { s with input := rest } ∧
      s.outputs = { inReady := true, write := none, frameActive := frameActive s.phase })

/-- The model's choice, log entry 2: after the last event no byte is offered and `rst` is 0, so a step is an IDLE cycle. -/
def Obligations.EndOfInputIsIdle : Prop :=
  ∀ s : State, s.input = [] → s.fetch = .idle ∧ step s = .next s

/-- R80: `0xFF` read in `WaitStart` clears `len` and `cnt`, whatever they held, and awaits the low byte; no write. -/
def Obligations.StartClearsLengthAndCount : Prop :=
  ∀ (s : State) (rest : List Event),
    exec .start s = .next { s with len := 0x0000, cnt := 0, phase := .waitLenLow } ∧
    (s.phase = .waitStart → s.input = .byte 0xFF :: rest →
      s.cycleWord.toBits = 0x4FF ∧ s.fetch = .start ∧ step s = exec .start { s with input := rest } ∧
      s.outputs = { inReady := true, write := none, frameActive := false } ∧
      frameActive .waitLenLow = false ∧ noteOf .start = none)

/-- R81: any other byte read in `WaitStart` is consumed and changes nothing, stale `len` and `cnt` included. -/
def Obligations.SkipDropsTheByte : Prop :=
  ∀ (s : State) (b : Byte) (rest : List Event),
    exec (.skip b) s = .next s ∧
    (s.phase = .waitStart → b ≠ 0xFF → s.input = .byte b :: rest →
      s.cycleWord.toBits = 0x4#4 ++ b ∧ s.fetch = .skip b ∧ step s = exec (.skip b) { s with input := rest } ∧
      s.outputs = { inReady := true, write := none, frameActive := false } ∧ noteOf (.skip b) = some .eDesync)

/-- R90 (its upper byte of zeros is the spec's decision D9): every byte read in `WaitLenLow`, `0xFF` among them, is the low
byte of the length. -/
def Obligations.LenloStoresTheLowByte : Prop :=
  ∀ (s : State) (b : Byte) (rest : List Event),
    exec (.lenlo b) s = .next { s with len := b.setWidth 16, phase := .waitLenHigh } ∧
    (s.phase = .waitLenLow → s.input = .byte b :: rest →
      s.cycleWord.toBits = 0x5#4 ++ b ∧ s.fetch = .lenlo b ∧ step s = exec (.lenlo b) { s with input := rest } ∧
      s.outputs = { inReady := true, write := none, frameActive := false } ∧ noteOf (.lenlo b) = none)

/-- R91: a combined length in `1..512` is kept, the count is cleared, and payload follows; the guard is the one of R67. -/
def Obligations.LenhiOkAcceptsTheFrame : Prop :=
  ∀ (s : State) (b : Byte) (rest : List Event),
    exec (.lenhiOk b) s = .next { s with len := b ++ s.len.extractLsb' 0 8, cnt := 0, phase := .waitPayload } ∧
    (s.phase = .waitLenHigh → s.input = .byte b :: rest →
      1 ≤ (b ++ s.len.extractLsb' 0 8).toNat → (b ++ s.len.extractLsb' 0 8).toNat ≤ 512 →
      s.cycleWord.toBits = 0x6#4 ++ b ∧ s.fetch = .lenhiOk b ∧ step s = exec (.lenhiOk b) { s with input := rest } ∧
      s.outputs = { inReady := true, write := none, frameActive := false } ∧ frameActive .waitPayload = true ∧
      noteOf (.lenhiOk b) = none) ∧
    (1 ≤ (b ++ s.len.extractLsb' 0 8).toNat ∧ (b ++ s.len.extractLsb' 0 8).toNat ≤ 512 ↔
      (b = 0 ∧ s.len.extractLsb' 0 8 ≠ 0) ∨ b = 1 ∨ (b = 2 ∧ s.len.extractLsb' 0 8 = 0))

/-- R92 (that the rejected length stays in `len` is the spec's decision D9): a combined length of 0 or of more than 512
discards the header; `cnt` is not written, nothing is written to a channel, and `frame_active` stays 0. -/
def Obligations.LenhiRejDiscardsTheHeader : Prop :=
  ∀ (s : State) (b : Byte) (rest : List Event),
    exec (.lenhiRej b) s = .next { s with len := b ++ s.len.extractLsb' 0 8, phase := .waitStart } ∧
    (s.phase = .waitLenHigh → s.input = .byte b :: rest →
      ((b ++ s.len.extractLsb' 0 8).toNat = 0 ∨ 512 < (b ++ s.len.extractLsb' 0 8).toNat) →
      s.cycleWord.toBits = 0x6#4 ++ b ∧ s.fetch = .lenhiRej b ∧ step s = exec (.lenhiRej b) { s with input := rest } ∧
      s.outputs = { inReady := true, write := none, frameActive := false } ∧ frameActive .waitStart = false ∧
      noteOf (.lenhiRej b) = some .eLen)

/-- R100: the byte goes to channel `cnt + 1` unchanged, the count takes that value, the phase and the length stay, and no
other cell changes; the write is on the port in the same cycle; on reachable registers the channel is 1 to 511. -/
def Obligations.DataWritesItsChannel : Prop :=
  ∀ (s : State) (b : Byte) (rest : List Event),
    (∃ t, exec (.data b) s = .next t ∧ t.phase = s.phase ∧ t.len = s.len ∧ t.cnt = s.cnt + 1 ∧ t.input = s.input ∧
      t.trace = s.trace ++ [⟨s.cnt + 1, b⟩] ∧
      (1 ≤ (s.cnt + 1).toNat → (s.cnt + 1).toNat ≤ 512 → channelUpdated s t (s.cnt + 1) b)) ∧
    (s.phase = .waitPayload → s.input = .byte b :: rest → (s.cnt + 1).setWidth 16 ≠ s.len →
      s.cycleWord.toBits = 0x7#4 ++ b ∧ s.fetch = .data b ∧ step s = exec (.data b) { s with input := rest } ∧
      s.outputs = { inReady := true, write := some ⟨s.cnt + 1, b⟩, frameActive := true } ∧
      (registersReachable s.phase s.len s.cnt = true → 1 ≤ (s.cnt + 1).toNat ∧ (s.cnt + 1).toNat ≤ 511) ∧
      noteOf (.data b) = none)

/-- R101: the last byte is written like any other, the count becomes the length, and the parser awaits a marker; the length
stays. -/
def Obligations.DataLastWritesAndEndsTheFrame : Prop :=
  ∀ (s : State) (b : Byte) (rest : List Event),
    (∃ t, exec (.dataLast b) s = .next t ∧ t.phase = .waitStart ∧ t.len = s.len ∧ t.cnt = s.cnt + 1 ∧
      t.input = s.input ∧ t.trace = s.trace ++ [⟨s.cnt + 1, b⟩] ∧
      (1 ≤ (s.cnt + 1).toNat → (s.cnt + 1).toNat ≤ 512 → channelUpdated s t (s.cnt + 1) b)) ∧
    (s.phase = .waitPayload → s.input = .byte b :: rest → (s.cnt + 1).setWidth 16 = s.len →
      s.cycleWord.toBits = 0x7#4 ++ b ∧ s.fetch = .dataLast b ∧ step s = exec (.dataLast b) { s with input := rest } ∧
      s.outputs = { inReady := true, write := some ⟨s.cnt + 1, b⟩, frameActive := true } ∧
      frameActive .waitStart = false ∧ noteOf (.dataLast b) = none ∧
      (registersReachable s.phase s.len s.cnt = true → 1 ≤ (s.cnt + 1).toNat ∧ (s.cnt + 1).toNat ≤ 512))

/-- 93_implementation_defined.md U1 and the model's choice of log entry 5, said of the meaning of DATA alone, in every phase
and without its selection (log entry 10; the reachable registers `(WaitStart, 0x0200, 512)` are among those it covers, and no
step selects DATA there): where `cnt + 1` is no channel number, DATA moves `cnt` and the trace as ever, and the universe
holds the free values of a new epoch. `StrayPayloadByteFreesTheUniverse` says it of the step, for DATA and DATA_LAST. -/
def Obligations.StrayWriteFreesTheUniverse : Prop :=
  ∀ (s : State) (b : Byte), (s.cnt + 1).toNat = 0 ∨ 512 < (s.cnt + 1).toNat →
    ∃ t, exec (.data b) s = .next t ∧ t.phase = s.phase ∧ t.len = s.len ∧ t.cnt = s.cnt + 1 ∧ t.input = s.input ∧
      t.trace = s.trace ++ [⟨s.cnt + 1, b⟩] ∧ ∀ k, t.readChannel k = Config.universeBase (s.epoch + 1) k

/-! ### Frames -/

/-- 43_stream_properties.md section 4 (the spec's derived rule on well-formed frames): a frame read in `WaitStart`, from
reachable registers or not, writes its payload to channels 1, 2, ... in order, leaves the other cells, and ends in
`WaitStart` with `len = cnt = L`. -/
def Obligations.FrameAppliesItsPayload : Prop :=
  ∀ (s : State) (lo hi : Byte) (p : List Byte),
    s.phase = .waitStart → 1 ≤ 256 * hi.toNat + lo.toNat → 256 * hi.toNat + lo.toNat ≤ 512 →
    p.length = 256 * hi.toNat + lo.toNat →
    ∃ t, exec (.frame lo hi p) s = .next t ∧ t.phase = .waitStart ∧ t.len.toNat = p.length ∧ t.cnt.toNat = p.length ∧
      t.input = s.input ∧ t.epoch = s.epoch ∧ t.trace = s.trace ++ payloadWrites 1 p ∧
      (∀ (i : Nat) (h : i < p.length), t.readChannel (i + 1) = p[i]) ∧
      ∀ k, k = 0 ∨ p.length < k → t.readChannel k = s.readChannel k

/-- 43_stream_properties.md section 4 (the spec's derived rule on malformed headers): a header of length 0 or above 512 read
in `WaitStart` is consumed whole and rejected: no write, and `(WaitStart, L, 0)`. -/
def Obligations.RejectedHeaderWritesNothing : Prop :=
  ∀ (s : State) (lo hi : Byte), s.phase = .waitStart →
    256 * hi.toNat + lo.toNat = 0 ∨ 512 < 256 * hi.toNat + lo.toNat →
    exec (.frame lo hi []) s = .next { s with len := hi ++ lo, cnt := 0 }

/-- 30_encoding.md section 3 and 43_stream_properties.md section 6 (batching), and the model's choice of log entry 3: in every
phase and for every payload,
the FRAME row is exactly the run of its `3 + L` bytes, one cycle each. -/
def Obligations.FrameEqualsItsCycles : Prop :=
  ∀ (s : State) (lo hi : Byte) (p : List Byte),
    ∃ t, exec (.frame lo hi p) s = .next t ∧
      Sys2Proof.core.run (3 + p.length) { s with input := byteEvents (frameBytes lo hi p) ++ s.input } = .next t

/-- 43_stream_properties.md sections 4 and 6 and 70_reset_and_hazards.md section 3 (obligations of the host): any number of
frames, each after any bytes other than `0xFF`, starting in `WaitStart`: exactly the frames' payload bytes are written, in
order, each frame from channel 1; rejected headers among them write nothing. That a frame event is one step of the run is
the model's choice, log entry 3. -/
def Obligations.WellBehavedHostGetsExactlyItsWrites : Prop :=
  ∀ (s : State) (fs : List (List Byte × Byte × Byte × List Byte)) (rest : List Event),
    s.phase = .waitStart →
    (∀ f ∈ fs, (∀ b ∈ f.1, b ≠ 0xFF) ∧ f.2.2.2.length = payloadLength f.2.1 f.2.2.1) →
    s.input = fs.flatMap (fun f => byteEvents f.1 ++ [.frame f.2.1 f.2.2.1 f.2.2.2]) ++ rest →
    ∃ t, Sys2Proof.core.run ((fs.map (fun f => f.1.length + 1)).sum) s = .next t ∧ t.phase = .waitStart ∧
      t.input = rest ∧ t.trace = s.trace ++ fs.flatMap (fun f => payloadWrites 1 f.2.2.2)

/-! ### Steps, decoding and encoding -/

/-- R65, R66 and the model's fetch (log entries 2 and 3): a step runs the instruction that the decoder reads from the cycle
word, on the state whose input has moved on by one event; a whole frame read in `WaitStart` runs as the FRAME row, and a
frame event that is not one is taken byte by byte. -/
def Obligations.StepRunsTheDecodedInstruction : Prop :=
  (∀ (s : State) (i : Instr), (∀ lo hi p, s.input.head? ≠ some (.frame lo hi p)) →
    decode (.cycle s.cycleWord.toBits) s.len s.cnt = .ok i → step s = exec i { s with input := s.input.tail }) ∧
  (∀ (s : State) (lo hi : Byte) (p : List Byte) (rest : List Event), s.input = .frame lo hi p :: rest →
    (s.phase = .waitStart → WellFormed (.frame lo hi p) → step s = exec (.frame lo hi p) { s with input := rest }) ∧
    (s.phase ≠ .waitStart ∨ ¬ WellFormed (.frame lo hi p) →
      step s = step { s with input := byteEvents (frameBytes lo hi p) ++ rest }))

/-- R66 and R73: the decoder is the operation table: the first row, in ascending priority, whose pattern matches and whose
guard holds; and such a row exists for every cycle word and every `len` and `cnt`. -/
def Obligations.DecoderFollowsTheTable : Prop :=
  ∀ (w : BitVec 12) (len : Len) (cnt : Cnt),
    ∃ i, decodeByTable w len cnt = some i ∧ decode (.cycle w) len cnt = .ok i

/-- 30_encoding.md section 4 (the spec's derived rule on totality): of the nine rows exactly one is selected. -/
def Obligations.ExactlyOneRowIsSelected : Prop :=
  ∀ (w : BitVec 12) (len : Len) (cnt : Cnt),
    ∃ r ∈ opRows, r.selects w len cnt = true ∧ ∀ r' ∈ opRows, r'.selects w len cnt = true → r'.mnemonic = r.mnemonic

/-- Decode and encode agree (30_encoding.md sections 1 and 4): every well-formed instruction, with every operand, is read
back from its own bits wherever its row's guard holds. -/
def Obligations.DecodeAfterEncodeIsIdentity : Prop :=
  ∀ (i : Instr) (len : Len) (cnt : Cnt), WellFormed i → i.guardHolds len cnt = true →
    decode (encode i) len cnt = .ok i

/-- 30_encoding.md section 4: what is decoded is well-formed and meets its guard; with bit 11 set it is RESET, else with
bit 10 clear IDLE, and else, where a byte is accepted, no bit of the word is lost. -/
def Obligations.EncodeAfterDecodeKeepsTheBits : Prop :=
  ∀ (w : BitVec 12) (len : Len) (cnt : Cnt) (i : Instr), decode (.cycle w) len cnt = .ok i →
    WellFormed i ∧ i.guardHolds len cnt = true ∧
    (w.getLsbD 11 = true → i = .reset) ∧
    (w.getLsbD 11 = false → w.getLsbD 10 = false → i = .idle) ∧
    (w.getLsbD 11 = false → w.getLsbD 10 = true → encode i = .cycle w)

/-- 30_encoding.md sections 1 and 3: bytes that decode as a frame are that frame's bytes, no more and no fewer. -/
def Obligations.WireBytesAreTheirFrame : Prop :=
  ∀ (bs : List Byte) (len : Len) (cnt : Cnt) (i : Instr), decode (.wire bs) len cnt = .ok i →
    WellFormed i ∧ encode i = .wire bs

/-- Words written out by hand from the patterns of R66 and the listing of R60 decode to what they stand for. -/
def Obligations.WrittenWordsDecode : Prop :=
  decode (.cycle 0b111001100110) 2 1 = .ok .reset ∧ decode (.cycle 0b001000000000) 2 0 = .ok .idle ∧
  decode (.cycle 0b010011111111) 0 0 = .ok .start ∧ decode (.cycle 0b010001100110) 0 0 = .ok (.skip 0x66) ∧
  decode (.cycle 0b010100000010) 0 0 = .ok (.lenlo 0x02) ∧ decode (.cycle 0b011000000000) 2 0 = .ok (.lenhiOk 0x00) ∧
  decode (.cycle 0b011000000010) 1 0 = .ok (.lenhiRej 0x02) ∧ decode (.cycle 0b011101010101) 2 0 = .ok (.data 0x55) ∧
  decode (.cycle 0b011101110111) 1 0 = .ok (.dataLast 0x77) ∧
  decode (.wire [0xFF, 0x03, 0x00, 0x10, 0x20, 0x30]) 0 0 = .ok (.frame 0x03 0x00 [0x10, 0x20, 0x30])

/-- R62, 30_encoding.md section 4 and 41_length.md section "The validator's guarantee": the length is `256 * hi + lo`; it is
accepted exactly from 1 to 512; the byte-level reading and the bit-level readings of the validator agree with that. -/
def Obligations.LengthIsAssembledAndValidated : Prop :=
  ∀ hi lo : Byte,
    (combineLen hi lo).toNat = 256 * hi.toNat + lo.toNat ∧
    (lenAccepted (combineLen hi lo) = true ↔ 1 ≤ 256 * hi.toNat + lo.toNat ∧ 256 * hi.toNat + lo.toNat ≤ 512) ∧
    lenAccepted (combineLen hi lo) = lenAcceptedBytes hi lo ∧
    (512 < (combineLen hi lo).toNat ↔
      (combineLen hi lo).extractLsb' 10 6 ≠ 0 ∨
        ((combineLen hi lo).getLsbD 9 = true ∧ (combineLen hi lo).extractLsb' 0 9 ≠ 0))

/-- 43_stream_properties.md section 1 (the spec's derived one-function form): a cycle that accepts a byte is the byte-step
function. -/
def Obligations.AcceptedByteIsTheStepFunction : Prop :=
  ∀ (s : State) (b : Byte) (rest : List Event), s.input = .byte b :: rest →
    step s = .next ({ s with input := rest }.stepByte b)

/-- 60_exceptions.md section 1: no fault and no refusal, for any instruction in any state and for any input. -/
def Obligations.NothingEverStops : Prop :=
  (∀ (i : Instr) (s : State), ∃ t, exec i s = .next t) ∧ ∀ s : State, ∃ t, step s = .next t

/-- 10_state.md section 2: every step's change of phase, by the operation and its byte. The FRAME arm, a whole frame that
starts and ends in `WaitStart`, is no row of the spec's table: it rests on the model's choice of log entry 3. -/
def Obligations.PhaseFollowsTheGraph : Prop :=
  ∀ s t : State, step s = .next t →
    match s.fetch with
    | .reset => t.phase = .waitStart ∧ s.cycleWord.rst = true
    | .idle => t.phase = s.phase ∧ s.cycleWord.rst = false ∧ offered s.input = none
    | .skip b => s.phase = .waitStart ∧ offered s.input = some b ∧ b ≠ 0xFF ∧ t.phase = .waitStart
    | .start => s.phase = .waitStart ∧ offered s.input = some 0xFF ∧ t.phase = .waitLenLow
    | .lenlo b => s.phase = .waitLenLow ∧ offered s.input = some b ∧ t.phase = .waitLenHigh
    | .lenhiOk b => s.phase = .waitLenHigh ∧ offered s.input = some b ∧
        lenAccepted (combineLen b (lowByte s.len)) = true ∧ t.phase = .waitPayload
    | .lenhiRej b => s.phase = .waitLenHigh ∧ offered s.input = some b ∧
        lenAccepted (combineLen b (lowByte s.len)) = false ∧ t.phase = .waitStart
    | .data b => s.phase = .waitPayload ∧ offered s.input = some b ∧ (s.cnt + 1).setWidth 16 ≠ s.len ∧
        t.phase = .waitPayload
    | .dataLast b => s.phase = .waitPayload ∧ offered s.input = some b ∧ (s.cnt + 1).setWidth 16 = s.len ∧
        t.phase = .waitStart
    | .frame lo hi p => s.phase = .waitStart ∧ s.input.head? = some (.frame lo hi p) ∧ t.phase = .waitStart

/-- 30_encoding.md R70 and 60_exceptions.md R137: only in `WaitStart` is a byte a marker; elsewhere `0xFF` is a low length
byte, a rejected high length byte whatever the low one, or a payload byte. -/
def Obligations.MarkerIsRecognisedInWaitStartOnly : Prop :=
  ∀ (s : State) (rest : List Event), s.input = .byte 0xFF :: rest →
    (s.fetch = .start ↔ s.phase = .waitStart) ∧
    (s.phase = .waitLenLow → s.fetch = .lenlo 0xFF) ∧
    (s.phase = .waitLenHigh → s.fetch = .lenhiRej 0xFF) ∧
    (s.phase = .waitPayload → s.fetch = .data 0xFF ∨ s.fetch = .dataLast 0xFF)

/-- 41_length.md section "The validator's guarantee": from any state, reachable or not, `WaitPayload` is entered by LENHI_OK
alone, with a length in `1..512` and a count of 0. -/
def Obligations.PayloadIsEnteredByTheValidatorAlone : Prop :=
  ∀ s t : State, step s = .next t → s.phase ≠ .waitPayload → t.phase = .waitPayload →
    (∃ b, s.fetch = .lenhiOk b) ∧ 1 ≤ t.len.toNat ∧ t.len.toNat ≤ 512 ∧ t.cnt = 0

/-- 10_state.md section 3 and 70_reset_and_hazards.md section 4: `frame_active` rises with LENHI_OK alone and falls with
DATA_LAST or RESET alone. -/
def Obligations.FrameActiveChangesOnlyAtFrameEdges : Prop :=
  ∀ s t : State, step s = .next t →
    (frameActive s.phase = false → frameActive t.phase = true → ∃ b, s.fetch = .lenhiOk b) ∧
    (frameActive s.phase = true → frameActive t.phase = false → s.fetch = .reset ∨ ∃ b, s.fetch = .dataLast b)

/-! ### The write port and the universe -/

/-- 10_state.md section 8: in every cycle the write that the port shows is the write that is issued, at most one, and none
where it shows none. -/
def Obligations.WritePortShowsTheIssuedWrite : Prop :=
  ∀ s t : State, (∀ lo hi p, s.input.head? ≠ some (.frame lo hi p)) → step s = .next t →
    t.trace = s.trace ++ s.outputs.write.toList ∧
    (s.outputs.wrValid = true ↔ s.cycleWord.rst = false ∧ s.cycleWord.inValid = true ∧ s.phase = .waitPayload)

/-- 20_memory.md R46: a step of an operation other than DATA and DATA_LAST (and the FRAME row, which is made of them) issues
no write and changes no cell. -/
def Obligations.OnlyPayloadOperationsWrite : Prop :=
  ∀ s t : State, step s = .next t → (∀ b, s.fetch ≠ .data b) → (∀ b, s.fetch ≠ .dataLast b) →
    (∀ lo hi p, s.fetch ≠ .frame lo hi p) → t.trace = s.trace ∧ universeKept s t

/-- 20_memory.md section 9: the one-hot view. At most one select line is on, never line 0, none without a write; in a
reachable state the selected cell takes the offered byte and every other cell keeps its value. -/
def Obligations.OneHotSelectIsTheWritePort : Prop :=
  ∀ s : State,
    (∀ j k, s.outputs.sel j = true → s.outputs.sel k = true → j = k) ∧ s.outputs.sel 0 = false ∧
    (s.outputs.wrValid = false → ∀ k, s.outputs.sel k = false) ∧
    (∀ t, s.Inv → (∀ lo hi p, s.input.head? ≠ some (.frame lo hi p)) → step s = .next t →
      ∀ k, (s.outputs.sel k = true → some (t.readChannel k) = offered s.input) ∧
        (s.outputs.sel k = false → t.readChannel k = s.readChannel k))

/-- 42_payload.md section "The demultiplexer": on reachable registers in `WaitPayload` the effective channel is a real cell
and the 10-bit sum does not wrap. -/
def Obligations.EffectiveChannelIsARealCell : Prop :=
  ∀ s : State, registersReachable s.phase s.len s.cnt = true → s.phase = .waitPayload →
    (nextChan s.cnt).toNat = s.cnt.toNat + 1 ∧ 1 ≤ (nextChan s.cnt).toNat ∧ (nextChan s.cnt).toNat ≤ s.len.toNat ∧
    s.len.toNat ≤ 512 ∧ (endOfFrame s.cnt s.len = true ↔ s.cnt.toNat + 1 = s.len.toNat)

/-- 60_exceptions.md R131, R132 and section 3: a cycle that notes E_DESYNC changes nothing but the input; one that notes E_LEN
goes to `WaitStart`, keeps the combined length in `len` and changes nothing else; a cycle that issues a write notes no
error. -/
def Obligations.ErrorClassesAreSilent : Prop :=
  ∀ s t : State, (∀ lo hi p, s.input.head? ≠ some (.frame lo hi p)) → step s = .next t →
    (noteOf s.fetch = some .eDesync → t = { s with input := s.input.tail }) ∧
    (noteOf s.fetch = some .eLen →
      ∃ b, offered s.input = some b ∧
        t = { s with phase := .waitStart, len := combineLen b (lowByte s.len), input := s.input.tail }) ∧
    (s.outputs.wrValid = true → noteOf s.fetch = none)

/-! ### Invariants -/

/-- 43_stream_properties.md section 2 (the spec's derived invariant): every step keeps the invariant, from every state that
has it, for every input. -/
def Obligations.InvariantIsKeptByEveryStep : Prop :=
  ∀ s t : State, s.Inv → step s = .next t → t.Inv

/-- The reset state, with any input placed, has the invariant. -/
def Obligations.ResetHasTheInvariant : Prop :=
  ∀ es : List Event, { State.reset with input := es }.Inv

/-- 43_stream_properties.md section 2: the reachable registers are exactly the ones the invariant describes, each by some
byte list placed at reset. It is a claim over runs; the step lemma is `InvariantIsKeptByEveryStep`. -/
def Obligations.ReachableRegistersAreExactlyThese : Prop :=
  ∀ (p : Phase) (len : Len) (cnt : Cnt), registersReachable p len cnt = true ↔
    ∃ (bs : List Byte) (t : State),
      Sys2Proof.core.run bs.length { State.reset with input := byteEvents bs } = .next t ∧
      t.phase = p ∧ t.len = len ∧ t.cnt = cnt

/-- 43_stream_properties.md section 3 (the spec's derived safety rule, the source's first testable property): whatever the
host sends after reset, no write ever leaves channels 1 to 512. It is a claim over runs, a consequence of the step lemma
`InvariantIsKeptByEveryStep` and of `ResetHasTheInvariant`. -/
def Obligations.NoWriteIsEverOutOfRange : Prop :=
  ∀ (es : List Event) (n : Nat) (t : State),
    Sys2Proof.core.run n { State.reset with input := es } = .next t →
    ∀ w ∈ t.trace, 1 ≤ w.chan.toNat ∧ w.chan.toNat ≤ 512

/-- The universe stays in its canonical form, from every state, reachable or not (the form is the model's own, log
entry 4). -/
def Obligations.UniverseStaysCanonical : Prop :=
  ∀ s t : State, s.channels.wf → step s = .next t → t.channels.wf

/-- 00_scope.md R10 and 92_eei_decisions.md D22: on states with the invariant every step keeps the universe equal to the fold
of the write trace over its first content; on runs from reset that content is `U_init`. -/
def Obligations.UniverseIsTheFoldOfTheTrace : Prop :=
  (∀ s t : State, s.Inv → (∀ k, s.readChannel k = foldWrites (Config.universeBase s.epoch) s.trace k) →
    step s = .next t →
    t.epoch = s.epoch ∧ ∀ k, t.readChannel k = foldWrites (Config.universeBase t.epoch) t.trace k) ∧
  ∀ (es : List Event) (n : Nat) (t : State), Sys2Proof.core.run n { State.reset with input := es } = .next t →
    ∀ k, t.readChannel k = foldWrites Config.uInit t.trace k

/-! ### Streams -/

/-- 43_stream_properties.md section 6 (the spec's derived rule on noise): bytes other than `0xFF` read in `WaitStart` change
nothing at all. -/
def Obligations.NoiseWithoutMarkerIsAbsorbed : Prop :=
  ∀ (s : State) (ns : List Byte) (rest : List Event), s.phase = .waitStart → (∀ b ∈ ns, b ≠ 0xFF) →
    s.input = byteEvents ns ++ rest → Sys2Proof.core.run ns.length s = .next { s with input := rest }

/-- 43_stream_properties.md section 6 (the spec's derived rules on determinism and batching): idle cycles between bytes and
resets, anywhere and however many, change neither the final state nor the writes. The events are single cycles; frame events
(log entry 3) are left to `FrameEqualsItsCycles`. -/
def Obligations.IdleCyclesMakeNoDifference : Prop :=
  ∀ (s : State) (es : List Event), (∀ e ∈ es, e.isCycle = true) →
    Sys2Proof.core.run es.length { s with input := es } =
      Sys2Proof.core.run (es.filter (fun e => e != .idle)).length { s with input := es.filter (fun e => e != .idle) }

/-- 60_exceptions.md R133: a payload under way, after any silence, takes exactly the next `len - cnt` bytes, whatever they
are, to channels `cnt + 1` to `len`, and only then is the parser back in `WaitStart`. -/
def Obligations.StalledPayloadTakesTheNextBytes : Prop :=
  ∀ (s : State) (n : Nat) (bs : List Byte) (rest : List Event),
    registersReachable s.phase s.len s.cnt = true → s.phase = .waitPayload → s.cnt.toNat + bs.length = s.len.toNat →
    s.input = List.replicate n .idle ++ byteEvents bs ++ rest →
    Sys2Proof.core.run n s = .next { s with input := byteEvents bs ++ rest } ∧
    (∀ j, j < bs.length → ∃ u, Sys2Proof.core.run (n + j) s = .next u ∧ u.phase = .waitPayload) ∧
    ∃ t, Sys2Proof.core.run (n + bs.length) s = .next t ∧ t.phase = .waitStart ∧ t.len = s.len ∧
      t.cnt.toNat = s.len.toNat ∧ t.input = rest ∧ t.trace = s.trace ++ payloadWrites (s.cnt.toNat + 1) bs

/-- 60_exceptions.md section 5 (the spec's derived rule on recovery): from `WaitLenLow` two zero bytes, and from
`WaitLenHigh` any one byte from `0x03` up, lead to `WaitStart` without a write. -/
def Obligations.HeaderPhasesAreLeftByRejectedLengths : Prop :=
  ∀ (s : State) (b : Byte) (rest : List Event),
    (s.phase = .waitLenLow → s.input = .byte 0x00 :: .byte 0x00 :: rest →
      Sys2Proof.core.run 2 s = .next { s with phase := .waitStart, len := 0x0000, input := rest }) ∧
    (s.phase = .waitLenHigh → 3 ≤ b.toNat → s.input = .byte b :: rest →
      ∃ t, Sys2Proof.core.run 1 s = .next t ∧ t.phase = .waitStart ∧ t.trace = s.trace ∧ t.input = rest)

/-- 60_exceptions.md section 5 (the spec's derived universal sequence): from every reachable state 512 zero bytes lead to
`WaitStart`, and from `(WaitPayload, 512, 0)` no shorter sequence does. -/
def Obligations.FlushResynchronises : Prop :=
  (∀ (s : State) (rest : List Event), registersReachable s.phase s.len s.cnt = true →
    s.input = byteEvents (List.replicate 512 0x00) ++ rest →
    ∃ t, Sys2Proof.core.run 512 s = .next t ∧ t.phase = .waitStart ∧ t.input = rest) ∧
  ∀ (s : State) (bs : List Byte) (rest : List Event), s.phase = .waitPayload → s.len = 0x0200 → s.cnt = 0 →
    bs.length < 512 → s.input = byteEvents bs ++ rest →
    ∃ t, Sys2Proof.core.run bs.length s = .next t ∧ t.phase = .waitPayload

/-- 60_exceptions.md section 5, counter-example (b) of the rule on "always recoverable": on the host's well-formed frames
`FF 02 00 FF 02`, met at their fourth byte, the parser is out of step for ever and writes nothing. -/
def Obligations.PeriodicStreamNeverRecovers : Prop :=
  ∀ (n : Nat) (s : State) (rest : List Event), s.phase = .waitLenHigh → s.len = 0x0002 → s.cnt = 0 →
    s.input = byteEvents ((List.replicate n [0xFF, 0x02, 0x00, 0xFF, 0x02]).flatten) ++ rest →
    Sys2Proof.core.run (5 * n) s = .next { s with input := rest }

/-- 60_exceptions.md section 5, counter-example (a): a stalled payload with more than `3 + L` bytes outstanding swallows a
fresh frame of length `L` as data, marker and length bytes included. -/
def Obligations.StalledPayloadSwallowsAFrame : Prop :=
  ∀ (s : State) (lo hi : Byte) (p : List Byte) (rest : List Event),
    registersReachable s.phase s.len s.cnt = true → s.phase = .waitPayload →
    s.cnt.toNat + 3 + p.length < s.len.toNat → s.input = .frame lo hi p :: rest →
    ∃ t, Sys2Proof.core.run (3 + p.length) s = .next t ∧ t.phase = .waitPayload ∧ t.len = s.len ∧
      t.cnt.toNat = s.cnt.toNat + 3 + p.length ∧ t.input = rest ∧
      t.trace = s.trace ++ payloadWrites (s.cnt.toNat + 1) (frameBytes lo hi p)

/-- 20_memory.md section 8 (the spec's derived rule on the value path): in `WaitPayload` the byte's value steers nothing. -/
def Obligations.PayloadValueSteersNothing : Prop :=
  ∀ (s t t' : State) (b b' : Byte) (rest : List Event), s.phase = .waitPayload →
    step { s with input := .byte b :: rest } = .next t → step { s with input := .byte b' :: rest } = .next t' →
    sameRegisters t t' ∧ t.input = t'.input ∧ t.epoch = t'.epoch ∧
      t.trace.map Write.chan = t'.trace.map Write.chan

/-- 20_memory.md R46 and section 1: the universe, its unwritten content and the past writes are never read: two machines that
differ only there run alike, with the same registers and the same new writes. -/
def Obligations.UniverseIsNeverRead : Prop :=
  ∀ (n : Nat) (s s' t t' : State), sameRegisters s s' → s.input = s'.input →
    Sys2Proof.core.run n s = .next t → Sys2Proof.core.run n s' = .next t' →
    sameRegisters t t' ∧ t.input = t'.input ∧
      ∃ ws, t.trace = s.trace ++ ws ∧ t'.trace = s'.trace ++ ws

/-- 93_implementation_defined.md U1 and the model's choice of log entry 5, said of the step: a payload byte read in
`WaitPayload` for a channel number that does not exist, which no run from reset meets, is DATA or DATA_LAST as the
end-of-frame test says, moves the registers and shows on the write port as ever, and leaves the universe at the free values
of a new epoch. -/
def Obligations.StrayPayloadByteFreesTheUniverse : Prop :=
  ∀ (s : State) (b : Byte) (rest : List Event), s.phase = .waitPayload → s.input = .byte b :: rest →
    ((s.cnt + 1).toNat = 0 ∨ 512 < (s.cnt + 1).toNat) →
    registersReachable s.phase s.len s.cnt = false ∧
    s.fetch = (if (s.cnt + 1).setWidth 16 = s.len then .dataLast b else .data b) ∧
    s.outputs = { inReady := true, write := some ⟨s.cnt + 1, b⟩, frameActive := true } ∧
    ∃ t, step s = .next t ∧ t.phase = (if (s.cnt + 1).setWidth 16 = s.len then .waitStart else .waitPayload) ∧
      t.len = s.len ∧ t.cnt = s.cnt + 1 ∧ t.input = rest ∧ t.trace = s.trace ++ [⟨s.cnt + 1, b⟩] ∧
      ∀ k, t.readChannel k = Config.universeBase (s.epoch + 1) k
end

