-- ==== Sys2Proof/Laws/Decode.lean ====
section
/-! SUPPORT. The fields of a cycle word and its twelve bits determine each other, and the frame decoder says what it read. -/

namespace Sys2Proof

@[simp] theorem Phase.ofCode_code (p : Phase) : Phase.ofCode p.code = p := by cases p <;> rfl

/-- The two-bit codes are all used. -/
theorem Phase.code_ofCode (c : BitVec 2) : (Phase.ofCode c).code = c := by
  revert c; decide

/-- Bit `i` of a cycle word, field by field. -/
theorem CycleWord.toBits_getLsbD (c : CycleWord) (i : Nat) :
    c.toBits.getLsbD i =
      if i < 8 then c.inData.getLsbD i
      else if i < 10 then c.phase.code.getLsbD (i - 8)
      else if i < 11 then (c.inValid && decide (i = 10))
      else (c.rst && decide (i = 11)) := by
  have h : ∀ (r v : Bool) (p : BitVec 2) (d : BitVec 8),
      (BitVec.ofBool r ++ (BitVec.ofBool v ++ (p ++ d))).getLsbD i =
        if i < 8 then d.getLsbD i else if i < 10 then p.getLsbD (i - 8)
        else if i < 11 then (v && decide (i = 10)) else (r && decide (i = 11)) := by
    intro r v p d
    simp only [BitVec.getLsbD_append, BitVec.getLsbD_ofBool]
    by_cases h8 : i < 8
    · rw [if_pos (by omega), if_pos (by omega), if_pos h8, if_pos h8]
    · by_cases h10 : i < 10
      · rw [if_pos (by omega), if_pos (by omega), if_neg h8, if_neg h8, if_pos h10]
      · by_cases h11 : i < 11
        · rw [if_pos (by omega), if_neg (by omega), if_neg h8, if_neg h10, if_pos h11, Bool.and_comm,
            decide_eq_decide.mpr (show i - (2 + 8) = 0 ↔ i = 10 by omega)]
        · rw [if_neg (by omega), if_neg h8, if_neg h10, if_neg h11, Bool.and_comm,
            decide_eq_decide.mpr (show i - (1 + (2 + 8)) = 0 ↔ i = 11 by omega)]
  exact h _ _ _ _

/-- The fields are read back from the bits. -/
@[simp] theorem CycleWord.ofBits_toBits (c : CycleWord) : CycleWord.ofBits c.toBits = c := by
  have hp : c.toBits.extractLsb' 8 2 = c.phase.code := by
    ext i hi
    rw [BitVec.getElem_extractLsb', CycleWord.toBits_getLsbD, if_neg (by omega), if_pos (by omega),
      Nat.add_sub_cancel_left, BitVec.getLsbD_eq_getElem]
  have hd : c.toBits.extractLsb' 0 8 = c.inData := by
    ext i hi
    rw [BitVec.getElem_extractLsb', CycleWord.toBits_getLsbD, if_pos (by omega), Nat.zero_add,
      BitVec.getLsbD_eq_getElem]
  have hr : c.toBits.getLsbD 11 = c.rst := by rw [CycleWord.toBits_getLsbD]; simp
  have hv : c.toBits.getLsbD 10 = c.inValid := by rw [CycleWord.toBits_getLsbD]; simp
  simp only [CycleWord.ofBits, hp, hd, hr, hv, Phase.ofCode_code]

/-- A frame's own bytes, followed by any others, are read as that frame. -/
theorem decodeWire_frameBytes (lo hi : Byte) (p more : List Byte) (h : p.length = Machine.payloadLength lo hi) :
    decodeWire (Machine.frameBytes lo hi p ++ more) = .ok (.frame lo hi p, more) := by
  simp [decodeWire, Machine.frameBytes, ← h]

end Sys2Proof
end

