-- ==== Sys2Proof/Laws/Operands.lean ====
section
/-! SUPPORT. The tests of the block as propositions on numbers. -/

namespace Sys2Proof.Machine

theorem channelExists_iff (k : Nat) : channelExists k = true ↔ 1 ≤ k ∧ k ≤ 512 := by
  simp [channelExists]

theorem lenAccepted_iff (L : Len) : lenAccepted L = true ↔ 1 ≤ L.toNat ∧ L.toNat ≤ 512 := by
  simp [lenAccepted]

theorem lenAccepted_false_iff (L : Len) : lenAccepted L = false ↔ L = 0 ∨ 512 < L.toNat := by
  have h0 : L = 0 ↔ L.toNat = 0 := by rw [← BitVec.toNat_inj]; simp
  rw [← Bool.not_eq_true, lenAccepted_iff, h0]
  omega

theorem endOfFrame_iff (cnt : Cnt) (len : Len) : endOfFrame cnt len = true ↔ (cnt + 1).setWidth 16 = len := by
  simp [endOfFrame, nextChan]

theorem nextChan_toNat {cnt : Cnt} (h : cnt.toNat < 1023) : (nextChan cnt).toNat = cnt.toNat + 1 := by
  rw [nextChan, BitVec.toNat_add]
  exact Nat.mod_eq_of_lt (by simp; omega)

@[simp] theorem frameBytes_length (lo hi : Byte) (p : List Byte) : (frameBytes lo hi p).length = 3 + p.length := by
  simp [frameBytes]; omega

end Sys2Proof.Machine
end

