-- ==== Sys2Proof/Laws/Memory.lean ====
section
/-! SUPPORT. The universe: a read after a write, and that every operation keeps the one canonical form. -/

namespace Sys2Proof.Machine

/-- The written cell reads back. -/
@[simp] theorem Memory.read_write_same (m : Memory) (k : Nat) (v : Byte) : (m.write k v).read k = some v := by
  induction m with
  | nil => simp [Memory.write, Memory.read]
  | cons c rest ih =>
    unfold Memory.write
    split
    · simp [Memory.read]
    · split
      · simp [Memory.read]
      · rename_i hne
        simp [Memory.read, hne, ih]

/-- Every other cell is as before. -/
theorem Memory.read_write_other (m : Memory) {k j : Nat} (v : Byte) (h : j ≠ k) :
    (m.write k v).read j = m.read j := by
  induction m with
  | nil => simp [Memory.write, Memory.read, h]
  | cons c rest ih =>
    unfold Memory.write
    split
    · simp [Memory.read, h]
    · split
      · rename_i heq
        simp [Memory.read, h, ← heq]
      · simp [Memory.read, ih]

/-- Which cells a write lists: the written one, and those listed before. -/
theorem Memory.mem_write {m : Memory} {k : Nat} {v : Byte} {c : Host.Cell} (h : c ∈ m.write k v) :
    c = (k, v) ∨ c ∈ m := by
  induction m with
  | nil => exact .inl (by simpa [Memory.write] using h)
  | cons d rest ih =>
    unfold Memory.write at h
    split at h
    · rcases List.mem_cons.mp h with h | h
      · exact .inl h
      · exact .inr h
    · split at h
      · rcases List.mem_cons.mp h with h | h
        · exact .inl h
        · exact .inr (List.mem_cons_of_mem _ h)
      · rcases List.mem_cons.mp h with h | h
        · exact .inr (h ▸ List.mem_cons_self)
        · exact (ih h).imp id (List.mem_cons_of_mem _)

/-- A write keeps the channel numbers strictly rising. -/
theorem Memory.write_rising {m : Memory} (k : Nat) (v : Byte) (h : m.Pairwise (fun c d => c.1 < d.1)) :
    (m.write k v).Pairwise (fun c d => c.1 < d.1) := by
  induction m with
  | nil => simp [Memory.write]
  | cons d rest ih =>
    obtain ⟨hd, hr⟩ := List.pairwise_cons.mp h
    unfold Memory.write
    split
    · rename_i hk
      refine List.pairwise_cons.mpr ⟨fun c hc => ?_, h⟩
      rcases List.mem_cons.mp hc with rfl | hc
      · exact hk
      · exact lt_trans hk (hd c hc)
    · split
      · rename_i heq
        exact List.pairwise_cons.mpr ⟨fun c hc => heq ▸ hd c hc, hr⟩
      · rename_i hlt hne
        refine List.pairwise_cons.mpr ⟨fun c hc => ?_, ih hr⟩
        rcases Memory.mem_write hc with rfl | hc
        · exact lt_of_le_of_ne (Nat.le_of_not_lt hlt) (Ne.symm hne)
        · exact hd c hc

/-- A write to a channel that exists keeps the canonical form. -/
theorem Memory.write_wf {m : Memory} {k : Nat} (v : Byte) (h : m.wf) (hk : channelExists k = true) :
    (m.write k v).wf := by
  refine ⟨Memory.write_rising k v h.1, fun c hc => ?_⟩
  rcases Memory.mem_write hc with rfl | hc
  · exact (channelExists_iff k).mp hk
  · exact h.2 c hc

/-- The empty universe is in canonical form. -/
theorem Memory.nil_wf : Memory.wf [] := ⟨List.Pairwise.nil, fun _ h => nomatch h⟩

/-- The reset state's universe is in canonical form. -/
theorem State.reset_channels_wf : State.reset.channels.wf := Memory.nil_wf

end Sys2Proof.Machine
end

