-- ==== Sys2Proof/Laws/State.lean ====
section
/-! SUPPORT. One lemma per field and update, so that no later proof unfolds a record update. -/

namespace Sys2Proof.Machine

@[simp] theorem State.setPhase_phase (s : State) (p : Phase) : (s.setPhase p).phase = p := rfl
@[simp] theorem State.setPhase_len (s : State) (p : Phase) : (s.setPhase p).len = s.len := rfl
@[simp] theorem State.setPhase_cnt (s : State) (p : Phase) : (s.setPhase p).cnt = s.cnt := rfl
@[simp] theorem State.setPhase_channels (s : State) (p : Phase) : (s.setPhase p).channels = s.channels := rfl
@[simp] theorem State.setPhase_epoch (s : State) (p : Phase) : (s.setPhase p).epoch = s.epoch := rfl
@[simp] theorem State.setPhase_trace (s : State) (p : Phase) : (s.setPhase p).trace = s.trace := rfl
@[simp] theorem State.setPhase_input (s : State) (p : Phase) : (s.setPhase p).input = s.input := rfl

@[simp] theorem State.setLen_phase (s : State) (v : Len) : (s.setLen v).phase = s.phase := rfl
@[simp] theorem State.setLen_len (s : State) (v : Len) : (s.setLen v).len = v := rfl
@[simp] theorem State.setLen_cnt (s : State) (v : Len) : (s.setLen v).cnt = s.cnt := rfl
@[simp] theorem State.setLen_channels (s : State) (v : Len) : (s.setLen v).channels = s.channels := rfl
@[simp] theorem State.setLen_epoch (s : State) (v : Len) : (s.setLen v).epoch = s.epoch := rfl
@[simp] theorem State.setLen_trace (s : State) (v : Len) : (s.setLen v).trace = s.trace := rfl
@[simp] theorem State.setLen_input (s : State) (v : Len) : (s.setLen v).input = s.input := rfl

@[simp] theorem State.setCnt_phase (s : State) (v : Cnt) : (s.setCnt v).phase = s.phase := rfl
@[simp] theorem State.setCnt_len (s : State) (v : Cnt) : (s.setCnt v).len = s.len := rfl
@[simp] theorem State.setCnt_cnt (s : State) (v : Cnt) : (s.setCnt v).cnt = v := rfl
@[simp] theorem State.setCnt_channels (s : State) (v : Cnt) : (s.setCnt v).channels = s.channels := rfl
@[simp] theorem State.setCnt_epoch (s : State) (v : Cnt) : (s.setCnt v).epoch = s.epoch := rfl
@[simp] theorem State.setCnt_trace (s : State) (v : Cnt) : (s.setCnt v).trace = s.trace := rfl
@[simp] theorem State.setCnt_input (s : State) (v : Cnt) : (s.setCnt v).input = s.input := rfl

@[simp] theorem State.setInput_phase (s : State) (es : List Event) : (s.setInput es).phase = s.phase := rfl
@[simp] theorem State.setInput_len (s : State) (es : List Event) : (s.setInput es).len = s.len := rfl
@[simp] theorem State.setInput_cnt (s : State) (es : List Event) : (s.setInput es).cnt = s.cnt := rfl
@[simp] theorem State.setInput_channels (s : State) (es : List Event) : (s.setInput es).channels = s.channels := rfl
@[simp] theorem State.setInput_epoch (s : State) (es : List Event) : (s.setInput es).epoch = s.epoch := rfl
@[simp] theorem State.setInput_trace (s : State) (es : List Event) : (s.setInput es).trace = s.trace := rfl
@[simp] theorem State.setInput_input (s : State) (es : List Event) : (s.setInput es).input = es := rfl

@[simp] theorem State.resync_phase (s : State) : s.resync.phase = .waitStart := rfl
@[simp] theorem State.resync_len (s : State) : s.resync.len = s.len := rfl
@[simp] theorem State.resync_cnt (s : State) : s.resync.cnt = s.cnt := rfl
@[simp] theorem State.resync_channels (s : State) : s.resync.channels = s.channels := rfl
@[simp] theorem State.resync_epoch (s : State) : s.resync.epoch = s.epoch := rfl
@[simp] theorem State.resync_trace (s : State) : s.resync.trace = s.trace := rfl
@[simp] theorem State.resync_input (s : State) : s.resync.input = s.input := rfl

@[simp] theorem State.chanWrite_phase (s : State) (ch : Chan) (v : Byte) : (s.chanWrite ch v).phase = s.phase := by
  unfold State.chanWrite; split <;> rfl
@[simp] theorem State.chanWrite_len (s : State) (ch : Chan) (v : Byte) : (s.chanWrite ch v).len = s.len := by
  unfold State.chanWrite; split <;> rfl
@[simp] theorem State.chanWrite_cnt (s : State) (ch : Chan) (v : Byte) : (s.chanWrite ch v).cnt = s.cnt := by
  unfold State.chanWrite; split <;> rfl
@[simp] theorem State.chanWrite_input (s : State) (ch : Chan) (v : Byte) : (s.chanWrite ch v).input = s.input := by
  unfold State.chanWrite; split <;> rfl
@[simp] theorem State.chanWrite_trace (s : State) (ch : Chan) (v : Byte) :
    (s.chanWrite ch v).trace = s.trace ++ [⟨ch, v⟩] := by
  unfold State.chanWrite; split <;> rfl

@[simp] theorem State.storePayload_phase (s : State) (b : Byte) : (s.storePayload b).phase = s.phase := by simp [State.storePayload]
@[simp] theorem State.storePayload_len (s : State) (b : Byte) : (s.storePayload b).len = s.len := by simp [State.storePayload]
@[simp] theorem State.storePayload_input (s : State) (b : Byte) : (s.storePayload b).input = s.input := by simp [State.storePayload]
@[simp] theorem State.storePayload_cnt (s : State) (b : Byte) : (s.storePayload b).cnt = nextChan s.cnt := rfl
@[simp] theorem State.storePayload_trace (s : State) (b : Byte) :
    (s.storePayload b).trace = s.trace ++ [⟨nextChan s.cnt, b⟩] := by simp [State.storePayload]

/-- What a channel holds depends on the universe and its epoch alone. -/
theorem State.readChannel_congr {s t : State} (hc : t.channels = s.channels) (he : t.epoch = s.epoch) (k : Nat) :
    t.readChannel k = s.readChannel k := by
  unfold State.readChannel; rw [hc, he]

@[simp] theorem State.setPhase_readChannel (s : State) (p : Phase) (k : Nat) :
    (s.setPhase p).readChannel k = s.readChannel k := rfl
@[simp] theorem State.setLen_readChannel (s : State) (v : Len) (k : Nat) :
    (s.setLen v).readChannel k = s.readChannel k := rfl
@[simp] theorem State.setCnt_readChannel (s : State) (v : Cnt) (k : Nat) :
    (s.setCnt v).readChannel k = s.readChannel k := rfl
@[simp] theorem State.setInput_readChannel (s : State) (es : List Event) (k : Nat) :
    (s.setInput es).readChannel k = s.readChannel k := rfl
@[simp] theorem State.resync_readChannel (s : State) (k : Nat) : s.resync.readChannel k = s.readChannel k := rfl

end Sys2Proof.Machine
end

