-- ==== Sys2Proof/Laws/Ops.lean ====
section
/-! SUPPORT. What each shared operation can do, said once. -/

namespace Sys2Proof.Machine

/-- A write to a channel that exists: the cell takes the value, every other cell keeps its own, the epoch stays. -/
theorem State.chanWrite_existing (s : State) {ch : Chan} (v : Byte) (h : channelExists ch.toNat = true) :
    (s.chanWrite ch v).epoch = s.epoch ∧ (s.chanWrite ch v).readChannel ch.toNat = v ∧
      ∀ k, k ≠ ch.toNat → (s.chanWrite ch v).readChannel k = s.readChannel k := by
  unfold State.chanWrite
  rw [if_pos h]
  refine ⟨rfl, ?_, fun k hk => ?_⟩
  · simp [State.readChannel]
  · simp [State.readChannel, Memory.read_write_other _ _ hk]

/-- A write to a channel number that does not exist: every cell holds the free value of a new epoch. -/
theorem State.chanWrite_stray (s : State) {ch : Chan} (v : Byte) (h : channelExists ch.toNat = false) (k : Nat) :
    (s.chanWrite ch v).readChannel k = Config.universeBase (s.epoch + 1) k := by
  unfold State.chanWrite
  rw [if_neg (by simp [h])]
  rfl

/-- `ChanWrite` keeps the canonical form, for every channel number. -/
theorem State.chanWrite_keeps_wf (s : State) (ch : Chan) (v : Byte) (h : s.channels.wf) :
    (s.chanWrite ch v).channels.wf := by
  unfold State.chanWrite
  split
  · exact Memory.write_wf v h ‹_›
  · exact Memory.nil_wf

/-- What one byte can do to the state: the seven byte operations, with the condition of each. -/
theorem State.stepByte_cases (s : State) (b : Byte) :
    (s.phase = .waitStart ∧ b = Config.marker ∧
      s.stepByte b = { s with phase := .waitLenLow, len := 0x0000, cnt := 0 }) ∨
    (s.phase = .waitStart ∧ b ≠ Config.marker ∧ s.stepByte b = s) ∨
    (s.phase = .waitLenLow ∧ s.stepByte b = { s with phase := .waitLenHigh, len := zextLen b }) ∨
    (s.phase = .waitLenHigh ∧ lenAccepted (combineLen b (lowByte s.len)) = true ∧
      s.stepByte b = { s with phase := .waitPayload, len := combineLen b (lowByte s.len), cnt := 0 }) ∨
    (s.phase = .waitLenHigh ∧ lenAccepted (combineLen b (lowByte s.len)) = false ∧
      s.stepByte b = { s with phase := .waitStart, len := combineLen b (lowByte s.len) }) ∨
    (s.phase = .waitPayload ∧ endOfFrame s.cnt s.len = false ∧ s.stepByte b = s.storePayload b) ∨
    (s.phase = .waitPayload ∧ endOfFrame s.cnt s.len = true ∧ s.stepByte b = (s.storePayload b).resync) := by
  rcases hp : s.phase with _ | _ | _ | _
  · by_cases hb : b = Config.marker
    · exact .inl ⟨rfl, hb, by simp [State.stepByte, hp, hb]⟩
    · exact .inr (.inl ⟨rfl, hb, by simp [State.stepByte, hp, hb]⟩)
  · exact .inr (.inr (.inl ⟨rfl, by simp [State.stepByte, hp, zextLen]⟩))
  · rcases ha : lenAccepted (combineLen b (lowByte s.len)) with _ | _
    · have := (lenAccepted_false_iff _).mp ha
      exact .inr (.inr (.inr (.inr (.inl ⟨rfl, rfl, by simp only [State.stepByte, hp, if_pos this]⟩))))
    · have := mt (lenAccepted_false_iff _).mpr (by rw [ha]; simp)
      exact .inr (.inr (.inr (.inl ⟨rfl, rfl, by simp only [State.stepByte, hp, if_neg this]⟩)))
  · rcases he : endOfFrame s.cnt s.len with _ | _
    · refine .inr (.inr (.inr (.inr (.inr (.inl ⟨rfl, rfl, ?_⟩)))))
      have : ¬ (s.cnt + 1).setWidth 16 = s.len := by simpa [endOfFrame, nextChan] using he
      simp only [State.stepByte, hp, if_neg this]
      rfl
    · refine .inr (.inr (.inr (.inr (.inr (.inr ⟨rfl, rfl, ?_⟩)))))
      have : (s.cnt + 1).setWidth 16 = s.len := by simpa [endOfFrame, nextChan] using he
      simp only [State.stepByte, hp, if_pos this]
      rfl

/-- A byte leaves the input events alone: taking it off the channel is the step's work. -/
@[simp] theorem State.stepByte_input (s : State) (b : Byte) : (s.stepByte b).input = s.input := by
  rcases s.stepByte_cases b with ⟨_, _, h⟩ | ⟨_, _, h⟩ | ⟨_, h⟩ | ⟨_, _, h⟩ | ⟨_, _, h⟩ | ⟨_, _, h⟩ | ⟨_, _, h⟩ <;>
    simp [h]

@[simp] theorem State.runBytes_nil (s : State) : s.runBytes [] = s := rfl
@[simp] theorem State.runBytes_cons (s : State) (b : Byte) (bs : List Byte) :
    s.runBytes (b :: bs) = (s.stepByte b).runBytes bs := rfl

/-- The run of a longer list is the run of its second part after its first. -/
theorem State.runBytes_append (s : State) (xs ys : List Byte) :
    s.runBytes (xs ++ ys) = (s.runBytes xs).runBytes ys := by
  induction xs generalizing s with
  | nil => rfl
  | cons x xs ih => exact ih _

@[simp] theorem State.runBytes_input (s : State) (bs : List Byte) : (s.runBytes bs).input = s.input := by
  induction bs generalizing s with
  | nil => rfl
  | cons b bs ih => simp [ih]

/-- What a byte does to the registers, the universe and the trace does not depend on the events still to come. -/
theorem State.chanWrite_setInput (s : State) (es : List Event) (ch : Chan) (v : Byte) :
    (s.setInput es).chanWrite ch v = (s.chanWrite ch v).setInput es := by
  simp only [State.chanWrite]; split <;> rfl

theorem State.stepByte_setInput (s : State) (es : List Event) (b : Byte) :
    (s.setInput es).stepByte b = (s.stepByte b).setInput es := by
  rcases hp : s.phase with _ | _ | _ | _
  · by_cases h : b = Config.marker <;> simp [State.stepByte, hp, h, State.setInput]
  · simp [State.stepByte, hp, State.setInput]
  · have hd : ∀ x : State, x.phase = .waitLenHigh → x.stepByte b =
        if combineLen b (lowByte x.len) = 0 ∨ 512 < (combineLen b (lowByte x.len)).toNat then
          (x.setLen (combineLen b (lowByte x.len))).setPhase .waitStart
        else ((x.setLen (combineLen b (lowByte x.len))).setCnt 0).setPhase .waitPayload := by
      intro x hx
      simp only [State.stepByte, hx]
      rfl
    rw [hd _ hp, hd (s.setInput es) hp, State.setInput_len]
    split <;> rfl
  · by_cases h : (s.cnt + 1).setWidth 16 = s.len
    · simp only [State.stepByte, State.setInput_phase, State.setInput_len, State.setInput_cnt, hp, if_pos h,
        State.chanWrite_setInput]
      rfl
    · simp only [State.stepByte, State.setInput_phase, State.setInput_len, State.setInput_cnt, hp, if_neg h,
        State.chanWrite_setInput]
      rfl

theorem State.runBytes_setInput (s : State) (es : List Event) (bs : List Byte) :
    (s.setInput es).runBytes bs = (s.runBytes bs).setInput es := by
  induction bs generalizing s with
  | nil => rfl
  | cons b bs ih => rw [State.runBytes_cons, State.runBytes_cons, State.stepByte_setInput, ih]

/-- What every byte keeps, a run of bytes keeps. -/
theorem State.runBytes_induction {P : State → Prop} (hstep : ∀ s b, P s → P (s.stepByte b)) {s : State} (h : P s)
    (bs : List Byte) : P (s.runBytes bs) := by
  induction bs generalizing s with
  | nil => exact h
  | cons b bs ih => exact ih (hstep s b h)

end Sys2Proof.Machine
end

