-- ==== Sys2Proof/Laws/PerInstr.lean ====
section
/-! SUPPORT. One lemma per instruction: its encoding lies in its own row of the operation table, and the row rebuilds it
from the eight bits of the byte; a frame's bytes are its marker, its length and its payload in arrival order. -/

namespace Sys2Proof.Laws.EncodeMatchesRow

/-- The name of the row of spec/opcode_table.json (spec 30_encoding.md rules R66 and R73). -/
def rowName (i : Instr) : String :=
  match i with
  | .reset => "RESET"
  | .idle => "IDLE"
  | .start => "START"
  | .skip _ => "SKIP"
  | .lenlo _ => "LENLO"
  | .lenhiOk _ => "LENHI_OK"
  | .lenhiRej _ => "LENHI_REJ"
  | .data _ => "DATA"
  | .dataLast _ => "DATA_LAST"
  | .frame _ _ _ => "FRAME"

/-- A cycle operation's word matches the pattern of the row of its name, which rebuilds it; a frame's bytes begin with the
marker and are three more than its payload. -/
def Statement (i : Instr) : Prop :=
  match encode i with
  | .cycle w => ∃ r ∈ opRows, r.mnemonic = rowName i ∧ r.matchesWord w = true ∧ r.build (w.extractLsb' 0 8) = i
  | .wire bs => rowName i = "FRAME" ∧ bs.head? = some 0xFF ∧ 3 ≤ bs.length

/-- The high four bits of a byte operation's word are the four written before the byte. -/
theorem prefixed_mask : ∀ b : Byte,
    ((0x4#4 ++ b) &&& 0xF00 = 0x400#12 ∧ (0x5#4 ++ b) &&& 0xF00 = 0x500#12) ∧
    (0x6#4 ++ b) &&& 0xF00 = 0x600#12 ∧ (0x7#4 ++ b) &&& 0xF00 = 0x700#12 := by
  decide +kernel

/-- The low eight bits are the byte. -/
theorem prefixed_low (n : BitVec 4) (b : Byte) : (n ++ b : BitVec 12).extractLsb' 0 8 = b := by
  ext i hi
  rw [BitVec.getElem_extractLsb', BitVec.getLsbD_append, if_pos (by omega), Nat.zero_add, BitVec.getLsbD_eq_getElem]

theorem reset : Statement .reset := ⟨⟨"RESET", 0x800, 0x800, fun _ => .reset⟩, by simp [opRows], rfl, rfl, rfl⟩
theorem idle : Statement .idle := ⟨⟨"IDLE", 0x000, 0xC00, fun _ => .idle⟩, by simp [opRows], rfl, rfl, rfl⟩
theorem start : Statement .start := ⟨⟨"START", 0x4FF, 0xFFF, fun _ => .start⟩, by simp [opRows], rfl, rfl, rfl⟩

theorem skip (b : Byte) : Statement (.skip b) :=
  ⟨⟨"SKIP", 0x400, 0xF00, .skip⟩, by simp [opRows], rfl, beq_iff_eq.mpr (prefixed_mask b).1.1,
    congrArg Instr.skip (prefixed_low _ b)⟩

theorem lenlo (b : Byte) : Statement (.lenlo b) :=
  ⟨⟨"LENLO", 0x500, 0xF00, .lenlo⟩, by simp [opRows], rfl, beq_iff_eq.mpr (prefixed_mask b).1.2,
    congrArg Instr.lenlo (prefixed_low _ b)⟩

theorem lenhiOk (b : Byte) : Statement (.lenhiOk b) :=
  ⟨⟨"LENHI_OK", 0x600, 0xF00, .lenhiOk⟩, by simp [opRows], rfl, beq_iff_eq.mpr (prefixed_mask b).2.1,
    congrArg Instr.lenhiOk (prefixed_low _ b)⟩

theorem lenhiRej (b : Byte) : Statement (.lenhiRej b) :=
  ⟨⟨"LENHI_REJ", 0x600, 0xF00, .lenhiRej⟩, by simp [opRows], rfl, beq_iff_eq.mpr (prefixed_mask b).2.1,
    congrArg Instr.lenhiRej (prefixed_low _ b)⟩

theorem data (b : Byte) : Statement (.data b) :=
  ⟨⟨"DATA", 0x700, 0xF00, .data⟩, by simp [opRows], rfl, beq_iff_eq.mpr (prefixed_mask b).2.2,
    congrArg Instr.data (prefixed_low _ b)⟩

theorem dataLast (b : Byte) : Statement (.dataLast b) :=
  ⟨⟨"DATA_LAST", 0x700, 0xF00, .dataLast⟩, by simp [opRows], rfl, beq_iff_eq.mpr (prefixed_mask b).2.2,
    congrArg Instr.dataLast (prefixed_low _ b)⟩

theorem frame (lo hi : Byte) (p : List Byte) : Statement (.frame lo hi p) :=
  ⟨rfl, rfl, by simp [Machine.frameBytes]⟩

end Sys2Proof.Laws.EncodeMatchesRow
end

