-- ==== Sys2Proof/Laws/Step.lean ====
section
/-! SUPPORT. What the fetch does, event by event. -/

namespace Sys2Proof.Machine

/-- Only a frame event can be a whole frame. -/
theorem State.wholeFrame_none {s : State} (h : ∀ lo hi p, s.input.head? ≠ some (.frame lo hi p)) :
    s.wholeFrame = none := by
  unfold State.wholeFrame
  split
  · rename_i hin
    exact absurd (by rw [hin]; rfl) (h _ _ _)
  · rfl

/-- In another phase nothing is taken whole. -/
theorem State.wholeFrame_of_phase {s : State} (h : s.phase ≠ .waitStart) : s.wholeFrame = none := by
  unfold State.wholeFrame
  split
  · exact absurd ‹_› h
  · rfl

/-- A frame of the length its header says, read in `WaitStart`, is taken whole. -/
theorem State.wholeFrame_of_frame {s : State} {lo hi : Byte} {p : List Byte} {rest : List Event}
    (hp : s.phase = .waitStart) (hi' : s.input = .frame lo hi p :: rest) (hl : p.length = payloadLength lo hi) :
    s.wholeFrame = some (.frame lo hi p) := by
  have h := decodeWire_frameBytes lo hi p [] hl
  rw [List.append_nil] at h
  unfold State.wholeFrame
  rw [hp, hi']
  simp [decode, h, Except.toOption]

/-- Without a whole frame the step is the operation of the cycle, and an event that is no frame is gone after it. -/
theorem State.fetch_of_cycle {s : State} (h : s.wholeFrame = none) :
    s.fetch = decodeCycle s.cycleWord s.len s.cnt := by
  unfold State.fetch; rw [h]

@[simp] theorem State.advance_phase (s : State) : s.advance.phase = s.phase := by
  unfold State.advance; split <;> rfl
@[simp] theorem State.advance_len (s : State) : s.advance.len = s.len := by
  unfold State.advance; split <;> rfl
@[simp] theorem State.advance_cnt (s : State) : s.advance.cnt = s.cnt := by
  unfold State.advance; split <;> rfl
@[simp] theorem State.advance_channels (s : State) : s.advance.channels = s.channels := by
  unfold State.advance; split <;> rfl
@[simp] theorem State.advance_epoch (s : State) : s.advance.epoch = s.epoch := by
  unfold State.advance; split <;> rfl
@[simp] theorem State.advance_trace (s : State) : s.advance.trace = s.trace := by
  unfold State.advance; split <;> rfl

/-- An event that is no frame is gone after its step. -/
theorem State.advance_of_cycle {s : State} (h : ∀ lo hi p, s.input.head? ≠ some (.frame lo hi p)) :
    s.advance = s.setInput s.input.tail := by
  unfold State.advance
  split
  · rename_i hin
    exact absurd (by rw [hin]; rfl) (h _ _ _)
  · rfl

/-- A frame taken whole is gone after its step. -/
theorem State.advance_of_frame {s : State} {lo hi : Byte} {p : List Byte} {rest : List Event}
    (hp : s.phase = .waitStart) (hi' : s.input = .frame lo hi p :: rest) (hl : p.length = payloadLength lo hi) :
    s.advance = s.setInput rest := by
  unfold State.advance
  rw [State.wholeFrame_of_frame hp hi' hl, hi']
  rfl

end Sys2Proof.Machine
end

