-- ==== Sys2Proof/Tests/Slice0.lean ====
section
/-! SUPPORT. Tests against spec/95_test_vectors.md (the vector is named at each test) and the witnesses: for every
obligation with hypotheses, concrete states and operands that meet all of them, clause by clause at boundary values. -/

namespace Sys2Proof.Tests

open Sys2Proof.Machine

/-- The reset state with other registers and with input placed. -/
def st (p : Phase) (len : Len) (cnt : Cnt) (es : List Event) : State :=
  { State.reset with phase := p, len := len, cnt := cnt, input := es }

/-- The same after one write. -/
def st1 (p : Phase) (len : Len) (cnt : Cnt) (es : List Event) (ch : Chan) (v : Byte) : State :=
  { st p len cnt es with channels := [(ch.toNat, v)], trace := [⟨ch, v⟩] }

/-! ### WellFormed refuses one ill-formed term for each check -/

theorem test_refuses_skip_of_marker : (Instr.skip 0xFF).check = some .skipOfMarker := by decide
theorem test_refuses_high_byte_three : (Instr.lenhiOk 0x03).check = some .highByteNeverAccepted := by decide
theorem test_refuses_rejection_of_one : (Instr.lenhiRej 0x01).check = some .highByteNeverRejected := by decide
theorem test_refuses_short_payload : (Instr.frame 0x03 0x00 [0x10]).check = some .payloadLengthWrong := by decide
theorem test_accepts_their_neighbours :
    WellFormed (.skip 0xFE) ∧ WellFormed (.lenhiOk 0x02) ∧ WellFormed (.lenhiRej 0x02) ∧ WellFormed (.frame 0 0 []) := by
  decide

/-! ### Decoding: words written out from the patterns of R66 (vector V22) and the listing of R60 (X1, X2) -/

theorem test_decode_reset : decode (.cycle 0b111101100110) 2 1 = .ok .reset := by rfl
theorem test_decode_idle : decode (.cycle 0b001000000000) 2 0 = .ok .idle := by rfl
theorem test_decode_start : decode (.cycle 0b010011111111) 0 0 = .ok .start := by rfl
theorem test_decode_skip : decode (.cycle 0b010001100110) 0 0 = .ok (.skip 0x66) := by rfl
theorem test_decode_lenlo : decode (.cycle 0b010111111111) 0 0 = .ok (.lenlo 0xFF) := by rfl
theorem test_decode_lenhiOk : decode (.cycle 0b011000000010) 0x0000 0 = .ok (.lenhiOk 0x02) := by rfl
theorem test_decode_lenhiRej : decode (.cycle 0b011000000010) 0x0001 0 = .ok (.lenhiRej 0x02) := by rfl
theorem test_decode_data : decode (.cycle 0b011101010101) 0x0002 0 = .ok (.data 0x55) := by rfl
theorem test_decode_dataLast : decode (.cycle 0b011101110111) 0x0001 0 = .ok (.dataLast 0x77) := by rfl
theorem test_decode_frame :
    decode (.wire [0xFF, 0x03, 0x00, 0x10, 0x20, 0x30]) 0 0 = .ok (.frame 0x03 0x00 [0x10, 0x20, 0x30]) := by rfl

/-- X4: a rejected header is three bytes long. -/
theorem test_decode_rejected_header : decode (.wire [0xFF, 0x01, 0x02]) 0 0 = .ok (.frame 0x01 0x02 []) := by rfl
theorem test_refuses_no_marker : decode (.wire [0xFE, 0x01, 0x00, 0x7F]) 0 0 = .error .noMarker := by rfl
theorem test_refuses_truncated_header : decode (.wire [0xFF, 0x01]) 0 0 = .error .truncatedHeader := by rfl
theorem test_refuses_truncated_payload : decode (.wire [0xFF, 0x02, 0x00, 0x7F]) 0 0 = .error .truncatedPayload := by rfl
theorem test_refuses_trailing : decode (.wire [0xFF, 0x01, 0x00, 0x7F, 0x00]) 0 0 = .error .trailingBytes := by rfl

theorem test_encode_words :
    encode .start = .cycle 0x4FF ∧ encode (.skip 0x66) = .cycle 0x466 ∧ encode (.lenlo 0x02) = .cycle 0x502 ∧
    encode (.lenhiOk 0x00) = .cycle 0x600 ∧ encode (.data 0x55) = .cycle 0x755 ∧
    encode (.dataLast 0x77) = .cycle 0x777 := by decide

theorem test_table_words :
    decodeTableWord 12 0x800 = some .reset ∧ decodeTableWord 12 0x000 = some .idle ∧
    decodeTableWord 12 0x4FF = some .start ∧ decodeTableWord 12 0x400 = some (.skip 0x00) ∧
    decodeTableWord 12 0x500 = some (.lenlo 0x00) ∧ decodeTableWord 12 0x602 = some (.lenhiOk 0x02) ∧
    decodeTableWord 16 0x600 = some (.lenhiRej 0x00) ∧ decodeTableWord 16 0x700 = some (.data 0x00) ∧
    decodeTableWord 16 0x1000 = none ∧ decodeTableWord 8 0xFF = some (.frame 0x00 0x00 []) := by decide

theorem test_table_frame : decodeTableWord 32 0x7F0001FF = some (.frame 0x01 0x00 [0x7F]) := by decide

theorem test_fetch_words :
    (State.reset.withFetchWord 12 0x800).fetch = .reset ∧ (State.reset.withFetchWord 12 0x000).fetch = .idle ∧
    (State.reset.withFetchWord 12 0x4FF).fetch = .start ∧ (State.reset.withFetchWord 12 0x4FE).fetch = .skip 0xFE ∧
    (State.reset.withFetchWord 12 0x5FF).fetch = .lenlo 0xFF ∧
    (State.reset.withFetchWord 12 0x601).fetch = .lenhiOk 0x01 ∧
    (State.reset.withFetchWord 12 0x600).fetch = .lenhiRej 0x00 ∧
    (State.reset.withFetchWord 12 0x755).fetch = .data 0x55 ∧
    (State.reset.withFetchWord 8 0xFF).fetch = .frame 0x00 0x00 [] ∧
    (State.reset.withFetchWord 32 0x7F0001FF).fetch = .frame 0x01 0x00 [0x7F] := by
  exact ⟨rfl, rfl, rfl, rfl, rfl, rfl, rfl, rfl, rfl, rfl⟩

/-! ### One step each -/

/-- V22 cycle 8: reset wins over the offered byte, which stays on offer; nothing is written. -/
theorem test_reset_in_payload :
    step (st1 .waitPayload 2 1 [.reset, .byte 0x66] 1 0x55) = .next (st1 .waitStart 0 0 [.byte 0x66] 1 0x55) := by rfl
theorem test_reset_outputs :
    (st .waitPayload 2 1 [.reset, .byte 0x66]).outputs = { inReady := false, write := none, frameActive := true } := by
  rfl

/-- V3. -/
theorem test_idle_in_payload : step (st .waitPayload 3 1 [.idle]) = .next (st .waitPayload 3 1 []) := by rfl

/-- V2, third and fifth row. -/
theorem test_start_clears : step (st .waitStart 0x0201 0 [.byte 0xFF]) = .next (st .waitLenLow 0 0 []) := by rfl
theorem test_start_clears_count : step (st .waitStart 0x0200 512 [.byte 0xFF]) = .next (st .waitLenLow 0 0 []) := by rfl

/-- V1. -/
theorem test_skip_keeps_stale : step (st .waitStart 0x0003 3 [.byte 0x00]) = .next (st .waitStart 0x0003 3 []) := by rfl

/-- V4, last row, and V23. -/
theorem test_lenlo_marker_value : step (st .waitLenLow 0 0 [.byte 0xFF]) = .next (st .waitLenHigh 0x00FF 0 []) := by rfl
theorem test_lenlo_drops_stale :
    step (st .waitLenLow 0x1234 9 [.byte 0x56]) = .next (st .waitLenHigh 0x0056 9 []) := by rfl

/-- V5: 512, and V23. -/
theorem test_lenhiOk_largest : step (st .waitLenHigh 0 0 [.byte 0x02]) = .next (st .waitPayload 0x0200 0 []) := by rfl
theorem test_lenhiOk_stale : step (st .waitLenHigh 0x1203 9 [.byte 0x00]) = .next (st .waitPayload 0x0003 0 []) := by rfl

/-- V5: 513, and V23. -/
theorem test_lenhiRej_over : step (st .waitLenHigh 0x0001 0 [.byte 0x02]) = .next (st .waitStart 0x0201 0 []) := by rfl
theorem test_lenhiRej_stale : step (st .waitLenHigh 0x1203 9 [.byte 0x03]) = .next (st .waitStart 0x0303 9 []) := by rfl

/-- V6, ninth row, and V23, first row: channel 601 does not exist. -/
theorem test_data_256 :
    step (st .waitPayload 0x0200 255 [.byte 0xFF]) = .next (st1 .waitPayload 0x0200 256 [] 256 0xFF) := by rfl
theorem test_data_stray :
    step (st .waitPayload 0x0005 600 [.byte 0x01]) =
      .next { st .waitPayload 0x0005 601 [] with epoch := 1, trace := [⟨601, 0x01⟩] } := by rfl

/-- V6, eleventh row, and V23, fourth row. -/
theorem test_dataLast_512 :
    step (st .waitPayload 0x0200 511 [.byte 0x02]) = .next (st1 .waitStart 0x0200 512 [] 512 0x02) := by rfl
theorem test_dataLast_wraps :
    step (st .waitPayload 0x0000 1023 [.byte 0xAB]) =
      .next { st .waitStart 0x0000 0 [] with epoch := 1, trace := [⟨0, 0xAB⟩] } := by rfl

/-- X2. -/
theorem test_frame_of_three :
    step (st .waitStart 0 0 [.frame 0x03 0x00 [0x10, 0x20, 0x30]]) =
      .next { st .waitStart 3 3 [] with
        channels := [(1, 0x10), (2, 0x20), (3, 0x30)], trace := [⟨1, 0x10⟩, ⟨2, 0x20⟩, ⟨3, 0x30⟩] } := by rfl

/-- P3, event 9: read in `WaitPayload`, a frame's marker is data. -/
theorem test_frame_in_payload :
    step (st .waitPayload 0x000A 2 [.frame 0x02 0x00 [0x99, 0x88]]) =
      .next (st1 .waitPayload 0x000A 3 [.byte 0x02, .byte 0x00, .byte 0x99, .byte 0x88] 3 0xFF) := by rfl

/-! ### Witnesses -/

theorem witness_ResetClearsRegistersOnly : (st .waitPayload 2 1 [.reset, .byte 0x66]).input = .reset :: [.byte 0x66] := by
  rfl

theorem witness_IdleChangesNothing : (st .waitPayload 3 1 [.idle]).input = .idle :: [] := by rfl

theorem witness_EndOfInputIsIdle : (st .waitPayload 3 1 []).input = [] := by rfl

theorem witness_StartClearsLengthAndCount :
    (st .waitStart 0x0201 0 [.byte 0xFF]).phase = .waitStart ∧
      (st .waitStart 0x0201 0 [.byte 0xFF]).input = .byte 0xFF :: [] := by decide

theorem witness_SkipDropsTheByte :
    (st .waitStart 3 3 [.byte 0xFE]).phase = .waitStart ∧ (0xFE : Byte) ≠ 0xFF ∧
      (st .waitStart 3 3 [.byte 0xFE]).input = .byte 0xFE :: [] := by decide

theorem witness_LenloStoresTheLowByte :
    (st .waitLenLow 0 0 [.byte 0xFF]).phase = .waitLenLow ∧
      (st .waitLenLow 0 0 [.byte 0xFF]).input = .byte 0xFF :: [] := by decide

/-- Lengths 1 and 512, and the three readings of R67. -/
theorem witness_LenhiOkAcceptsTheFrame :
    ((st .waitLenHigh 1 0 [.byte 0x00]).phase = .waitLenHigh ∧
      (st .waitLenHigh 1 0 [.byte 0x00]).input = .byte 0x00 :: [] ∧
      (0x00#8 ++ (st .waitLenHigh 1 0 [.byte 0x00]).len.extractLsb' 0 8).toNat = 1) ∧
    ((st .waitLenHigh 0 0 [.byte 0x02]).phase = .waitLenHigh ∧
      (st .waitLenHigh 0 0 [.byte 0x02]).input = .byte 0x02 :: [] ∧
      (0x02#8 ++ (st .waitLenHigh 0 0 [.byte 0x02]).len.extractLsb' 0 8).toNat = 512) := by decide

/-- Lengths 0 and 513. -/
theorem witness_LenhiRejDiscardsTheHeader :
    ((st .waitLenHigh 0 0 [.byte 0x00]).phase = .waitLenHigh ∧
      (st .waitLenHigh 0 0 [.byte 0x00]).input = .byte 0x00 :: [] ∧
      (0x00#8 ++ (st .waitLenHigh 0 0 [.byte 0x00]).len.extractLsb' 0 8).toNat = 0) ∧
    ((st .waitLenHigh 1 0 [.byte 0x02]).phase = .waitLenHigh ∧
      (st .waitLenHigh 1 0 [.byte 0x02]).input = .byte 0x02 :: [] ∧
      (0x02#8 ++ (st .waitLenHigh 1 0 [.byte 0x02]).len.extractLsb' 0 8).toNat = 513) := by decide

/-- The first channel and the last that DATA writes on reachable registers. -/
theorem witness_DataWritesItsChannel :
    ((st .waitPayload 2 0 [.byte 0x55]).phase = .waitPayload ∧
      (st .waitPayload 2 0 [.byte 0x55]).input = .byte 0x55 :: [] ∧
      ((0 : Cnt) + 1).setWidth 16 ≠ (2 : Len) ∧ registersReachable .waitPayload 2 0 = true ∧ ((0 : Cnt) + 1).toNat = 1) ∧
    ((st .waitPayload 0x0200 510 [.byte 0x01]).input = .byte 0x01 :: [] ∧
      ((510 : Cnt) + 1).setWidth 16 ≠ (0x0200 : Len) ∧ registersReachable .waitPayload 0x0200 510 = true ∧
      ((510 : Cnt) + 1).toNat = 511) ∧
    ((511 : Cnt) + 1).toNat = 512 := by decide

/-- The shortest frame's only byte and the longest frame's last. -/
theorem witness_DataLastWritesAndEndsTheFrame :
    ((st .waitPayload 1 0 [.byte 0x7F]).phase = .waitPayload ∧
      (st .waitPayload 1 0 [.byte 0x7F]).input = .byte 0x7F :: [] ∧
      ((0 : Cnt) + 1).setWidth 16 = (1 : Len) ∧ registersReachable .waitPayload 1 0 = true ∧ ((0 : Cnt) + 1).toNat = 1) ∧
    ((st .waitPayload 0x0200 511 [.byte 0x02]).input = .byte 0x02 :: [] ∧
      ((511 : Cnt) + 1).setWidth 16 = (0x0200 : Len) ∧ registersReachable .waitPayload 0x0200 511 = true ∧
      ((511 : Cnt) + 1).toNat = 512) := by decide

/-- V23: channel numbers 0 and 513. -/
theorem witness_StrayWriteFreesTheUniverse :
    ((st .waitPayload 0x0400 1023 []).cnt + 1).toNat = 0 ∧ 512 < ((st .waitPayload 5 512 []).cnt + 1).toNat := by decide

/-- Lengths 1 and 512. -/
theorem witness_FrameAppliesItsPayload :
    ((st .waitStart 0 0 []).phase = .waitStart ∧ 256 * (0x00 : Byte).toNat + (0x01 : Byte).toNat = 1 ∧
      [(0x7F : Byte)].length = 1) ∧
    (256 * (0x02 : Byte).toNat + (0x00 : Byte).toNat = 512 ∧ (List.replicate 512 (0xAA : Byte)).length = 512) := by
  exact ⟨by decide, by decide, List.length_replicate⟩

/-- Lengths 0 and 513. -/
theorem witness_RejectedHeaderWritesNothing :
    (st .waitStart 3 3 []).phase = .waitStart ∧ 256 * (0x00 : Byte).toNat + (0x00 : Byte).toNat = 0 ∧
      512 < 256 * (0x02 : Byte).toNat + (0x01 : Byte).toNat := by decide

/-- P2: noise, a rejected header, noise, and a frame. -/
theorem witness_WellBehavedHostGetsExactlyItsWrites :
    ∃ (s : State) (fs : List (List Byte × Byte × Byte × List Byte)),
      fs = [([0x00, 0x7E], 0x00, 0x00, []), ([0x01], 0x02, 0x00, [0xFF, 0x80])] ∧ s.phase = .waitStart ∧
      (∀ f ∈ fs, (∀ b ∈ f.1, b ≠ 0xFF) ∧ f.2.2.2.length = payloadLength f.2.1 f.2.2.1) ∧
      s.input = fs.flatMap (fun f => byteEvents f.1 ++ [.frame f.2.1 f.2.2.1 f.2.2.2]) ++ [.idle] :=
  ⟨st .waitStart 0 0 [.byte 0x00, .byte 0x7E, .frame 0x00 0x00 [], .byte 0x01, .frame 0x02 0x00 [0xFF, 0x80], .idle],
    _, rfl, rfl, by decide, rfl⟩

/-- A cycle; a whole frame; a frame in another phase; a frame event whose payload is too short. -/
theorem witness_StepRunsTheDecodedInstruction :
    (decode (.cycle (st .waitLenLow 0 0 [.byte 0x02]).cycleWord.toBits) 0 0 = .ok (.lenlo 0x02) ∧
      (st .waitLenLow 0 0 [.byte 0x02]).input.head? = some (.byte 0x02)) ∧
    ((st .waitStart 0 0 [.frame 0x01 0x00 [0x7F]]).input = .frame 0x01 0x00 [0x7F] :: [] ∧
      WellFormed (.frame 0x01 0x00 [0x7F])) ∧
    (st .waitPayload 0x000A 2 [.frame 0x01 0x00 [0x7F]]).phase ≠ .waitStart ∧
    ¬ WellFormed (.frame 0x02 0x00 [0x7F]) := by
  exact ⟨⟨rfl, rfl⟩, ⟨rfl, by decide⟩, by decide, by decide⟩

theorem witness_DecodeAfterEncodeIsIdentity :
    (WellFormed (.lenhiOk 0x02) ∧ Instr.guardHolds (.lenhiOk 0x02) 0x0000 0 = true) ∧
    (WellFormed (.lenhiRej 0x02) ∧ Instr.guardHolds (.lenhiRej 0x02) 0x0001 0 = true) ∧
    (WellFormed (.data 0xFF) ∧ Instr.guardHolds (.data 0xFF) 0x0002 0 = true) ∧
    (WellFormed (.dataLast 0xFF) ∧ Instr.guardHolds (.dataLast 0xFF) 0x0002 1 = true) ∧
    (WellFormed (.skip 0xFE) ∧ Instr.guardHolds (.skip 0xFE) 0 0 = true) ∧
    WellFormed (.frame 0x01 0x00 [0x7F]) := by decide

theorem witness_EncodeAfterDecodeKeepsTheBits :
    (decode (.cycle 0xF66) 2 1 = .ok .reset ∧ (0xF66 : BitVec 12).getLsbD 11 = true) ∧
    (decode (.cycle 0x200) 2 0 = .ok .idle ∧ (0x200 : BitVec 12).getLsbD 10 = false) ∧
    (decode (.cycle 0x755) 2 0 = .ok (.data 0x55) ∧ (0x755 : BitVec 12).getLsbD 10 = true) := by
  exact ⟨⟨rfl, rfl⟩, ⟨rfl, rfl⟩, rfl, rfl⟩

theorem witness_WireBytesAreTheirFrame :
    decode (.wire [0xFF, 0x01, 0x00, 0x7F]) 0 0 = .ok (.frame 0x01 0x00 [0x7F]) := by rfl

theorem witness_AcceptedByteIsTheStepFunction : (st .waitPayload 2 1 [.byte 0xFF]).input = .byte 0xFF :: [] := by rfl

/-- Every arm is met by a step: RESET, IDLE, SKIP, START, LENLO; then LENHI_OK at 512, LENHI_REJ at 513, DATA and DATA_LAST
at the last two channels, and a frame. -/
theorem witness_PhaseFollowsTheGraph :
    ((∃ t, step (st .waitPayload 2 1 [.reset, .byte 0x66]) = .next t) ∧
      (st .waitPayload 2 1 [.reset, .byte 0x66]).fetch = .reset ∧
      (∃ t, step (st .waitPayload 2 1 [.idle]) = .next t) ∧ (st .waitPayload 2 1 [.idle]).fetch = .idle ∧
      (∃ t, step (st .waitStart 3 3 [.byte 0xFE]) = .next t) ∧ (st .waitStart 3 3 [.byte 0xFE]).fetch = .skip 0xFE ∧
      (∃ t, step (st .waitStart 3 3 [.byte 0xFF]) = .next t) ∧ (st .waitStart 3 3 [.byte 0xFF]).fetch = .start ∧
      (∃ t, step (st .waitLenLow 0 0 [.byte 0xFF]) = .next t) ∧ (st .waitLenLow 0 0 [.byte 0xFF]).fetch = .lenlo 0xFF) ∧
    ((∃ t, step (st .waitLenHigh 0 0 [.byte 0x02]) = .next t) ∧
      (st .waitLenHigh 0 0 [.byte 0x02]).fetch = .lenhiOk 0x02 ∧
      (∃ t, step (st .waitLenHigh 1 0 [.byte 0x02]) = .next t) ∧
      (st .waitLenHigh 1 0 [.byte 0x02]).fetch = .lenhiRej 0x02 ∧
      (∃ t, step (st .waitPayload 0x0200 510 [.byte 0x01]) = .next t) ∧
      (st .waitPayload 0x0200 510 [.byte 0x01]).fetch = .data 0x01 ∧
      (∃ t, step (st .waitPayload 0x0200 511 [.byte 0x02]) = .next t) ∧
      (st .waitPayload 0x0200 511 [.byte 0x02]).fetch = .dataLast 0x02 ∧
      (∃ t, step (st .waitStart 0 0 [.frame 0x01 0x00 [0x7F]]) = .next t) ∧
      (st .waitStart 0 0 [.frame 0x01 0x00 [0x7F]]).fetch = .frame 0x01 0x00 [0x7F]) :=
  ⟨⟨⟨_, rfl⟩, rfl, ⟨_, rfl⟩, rfl, ⟨_, rfl⟩, rfl, ⟨_, rfl⟩, rfl, ⟨_, rfl⟩, rfl⟩,
    ⟨_, rfl⟩, rfl, ⟨_, rfl⟩, rfl, ⟨_, rfl⟩, rfl, ⟨_, rfl⟩, rfl, ⟨_, rfl⟩, rfl⟩

theorem witness_MarkerIsRecognisedInWaitStartOnly :
    ((st .waitLenLow 0 0 [.byte 0xFF]).input = .byte 0xFF :: [] ∧ (st .waitLenLow 0 0 [.byte 0xFF]).phase = .waitLenLow) ∧
    ((st .waitLenHigh 2 0 [.byte 0xFF]).input = .byte 0xFF :: [] ∧
      (st .waitLenHigh 2 0 [.byte 0xFF]).phase = .waitLenHigh) ∧
    ((st .waitPayload 2 1 [.byte 0xFF]).input = .byte 0xFF :: [] ∧
      (st .waitPayload 2 1 [.byte 0xFF]).phase = .waitPayload) := by decide

theorem witness_PayloadIsEnteredByTheValidatorAlone :
    step (st .waitLenHigh 1 0 [.byte 0x00]) = .next (st .waitPayload 1 0 []) ∧
      (st .waitLenHigh 1 0 [.byte 0x00]).phase ≠ .waitPayload ∧ (st .waitPayload 1 0 []).phase = .waitPayload :=
  ⟨rfl, by decide, rfl⟩

/-- The rise; the fall at the last byte; the fall at a reset. -/
theorem witness_FrameActiveChangesOnlyAtFrameEdges :
    (step (st .waitLenHigh 1 0 [.byte 0x00]) = .next (st .waitPayload 1 0 []) ∧
      frameActive .waitLenHigh = false ∧ frameActive .waitPayload = true) ∧
    (step (st .waitPayload 1 0 [.byte 0x7F]) = .next (st1 .waitStart 1 1 [] 1 0x7F) ∧
      frameActive .waitPayload = true ∧ frameActive .waitStart = false) ∧
    step (st .waitPayload 2 1 [.reset]) = .next (st .waitStart 0 0 []) := ⟨⟨rfl, rfl, rfl⟩, ⟨rfl, rfl, rfl⟩, rfl⟩

/-- A cycle with a write and a cycle without. -/
theorem witness_WritePortShowsTheIssuedWrite :
    (step (st .waitPayload 2 0 [.byte 0x55]) = .next (st1 .waitPayload 2 1 [] 1 0x55) ∧
      (st .waitPayload 2 0 [.byte 0x55]).input.head? = some (.byte 0x55)) ∧
    (step (st .waitPayload 2 1 [.reset, .byte 0x66]) = .next (st .waitStart 0 0 [.byte 0x66]) ∧
      (st .waitPayload 2 1 [.reset, .byte 0x66]).input.head? = some .reset) := ⟨⟨rfl, rfl⟩, rfl, rfl⟩

theorem witness_OnlyPayloadOperationsWrite :
    step (st .waitStart 0 0 [.byte 0x7E]) = .next (st .waitStart 0 0 []) ∧
      (st .waitStart 0 0 [.byte 0x7E]).fetch = .skip 0x7E := ⟨rfl, rfl⟩

theorem reset_inv (es : List Event) : (st .waitStart 0 0 es).Inv :=
  ⟨rfl, State.reset_channels_wf, fun _ h => nomatch h⟩

theorem payload_inv (b : Byte) : (st .waitPayload 0x0200 511 [.byte b]).Inv :=
  ⟨rfl, State.reset_channels_wf, fun _ h => nomatch h⟩

/-- The highest select line. -/
theorem witness_OneHotSelectIsTheWritePort :
    (st .waitPayload 0x0200 511 [.byte 0x02]).Inv ∧
      step (st .waitPayload 0x0200 511 [.byte 0x02]) = .next (st1 .waitStart 0x0200 512 [] 512 0x02) ∧
      (st .waitPayload 0x0200 511 [.byte 0x02]).outputs.sel 512 = true ∧
      (st .waitPayload 0x0200 511 [.byte 0x02]).outputs.sel 511 = false ∧
      (st .waitStart 0 0 [.byte 0x02]).outputs.wrValid = false := ⟨payload_inv _, rfl, rfl, rfl, rfl⟩

theorem witness_EffectiveChannelIsARealCell :
    (registersReachable .waitPayload 1 0 = true ∧ registersReachable .waitPayload 0x0200 511 = true) ∧
      (st .waitPayload 1 0 []).phase = .waitPayload := by decide

theorem witness_ErrorClassesAreSilent :
    (step (st .waitStart 3 3 [.byte 0x00]) = .next (st .waitStart 3 3 []) ∧
      noteOf (st .waitStart 3 3 [.byte 0x00]).fetch = some .eDesync) ∧
    (step (st .waitLenHigh 1 0 [.byte 0x02]) = .next (st .waitStart 0x0201 0 []) ∧
      noteOf (st .waitLenHigh 1 0 [.byte 0x02]).fetch = some .eLen) ∧
    (st .waitPayload 2 0 [.byte 0x55]).outputs.wrValid = true := ⟨⟨rfl, rfl⟩, ⟨rfl, rfl⟩, rfl⟩

theorem witness_InvariantIsKeptByEveryStep :
    (st .waitPayload 0x0200 511 [.byte 0x02]).Inv ∧
      step (st .waitPayload 0x0200 511 [.byte 0x02]) = .next (st1 .waitStart 0x0200 512 [] 512 0x02) :=
  ⟨payload_inv _, rfl⟩

/-- V7: a run from reset that writes. -/
theorem witness_NoWriteIsEverOutOfRange :
    Sys2Proof.core.run 1 { State.reset with input := [.frame 0x01 0x00 [0x7F]] } =
      .next (st1 .waitStart 1 1 [] 1 0x7F) := by rfl

theorem witness_ReachableRegistersAreExactlyThese :
    registersReachable .waitLenLow 0 0 = true ∧
      Sys2Proof.core.run 1 { State.reset with input := byteEvents [0xFF] } = .next (st .waitLenLow 0 0 []) :=
  ⟨rfl, rfl⟩

/-- From an unreachable state too. -/
theorem witness_UniverseStaysCanonical :
    (st1 .waitPayload 5 600 [.byte 0x01] 1 0x55).channels.wf ∧
      step (st1 .waitPayload 5 600 [.byte 0x01] 1 0x55) =
        .next { st .waitPayload 5 601 [] with epoch := 1, trace := [⟨1, 0x55⟩, ⟨601, 0x01⟩] } :=
  ⟨by decide, rfl⟩

theorem witness_UniverseIsTheFoldOfTheTrace :
    (st .waitPayload 0x0200 511 [.byte 0x02]).Inv ∧
      (∀ k, (st .waitPayload 0x0200 511 [.byte 0x02]).readChannel k = foldWrites (Config.universeBase 0) [] k) ∧
      step (st .waitPayload 0x0200 511 [.byte 0x02]) = .next (st1 .waitStart 0x0200 512 [] 512 0x02) ∧
      Sys2Proof.core.run 1 { State.reset with input := [.frame 0x01 0x00 [0x7F]] } =
        .next (st1 .waitStart 1 1 [] 1 0x7F) := ⟨payload_inv _, fun _ => rfl, rfl, rfl⟩

/-- V16. -/
theorem witness_NoiseWithoutMarkerIsAbsorbed :
    (∀ b ∈ ([0x00, 0x01, 0x7F, 0x80, 0xFE] : List Byte), b ≠ 0xFF) ∧
      (st .waitStart 3 3 [.byte 0x00, .byte 0x01, .byte 0x7F, .byte 0x80, .byte 0xFE]).input =
        byteEvents [0x00, 0x01, 0x7F, 0x80, 0xFE] ++ [] ∧
      (st .waitStart 3 3 []).phase = .waitStart := by decide

theorem witness_IdleCyclesMakeNoDifference :
    ∀ e ∈ ([.byte 0xFF, .idle, .byte 0x02, .idle, .reset] : List Event), e.isCycle = true := by decide

/-- P3: three bytes outstanding after a silence of three cycles. -/
theorem witness_StalledPayloadTakesTheNextBytes :
    registersReachable .waitPayload 0x000A 7 = true ∧ (7 : Cnt).toNat + ([0xFF, 0x02, 0x00] : List Byte).length = 10 ∧
      (0x000A : Len).toNat = 10 ∧
      (st .waitPayload 0x000A 7 [.idle, .idle, .idle, .byte 0xFF, .byte 0x02, .byte 0x00]).input =
        List.replicate 3 .idle ++ byteEvents [0xFF, 0x02, 0x00] ++ [] := by decide

theorem witness_HeaderPhasesAreLeftByRejectedLengths :
    ((st .waitLenLow 0 0 [.byte 0x00, .byte 0x00]).phase = .waitLenLow ∧
      (st .waitLenLow 0 0 [.byte 0x00, .byte 0x00]).input = .byte 0x00 :: .byte 0x00 :: []) ∧
    ((st .waitLenHigh 0 0 [.byte 0x03]).phase = .waitLenHigh ∧ 3 ≤ (0x03 : Byte).toNat ∧
      (st .waitLenHigh 0 0 [.byte 0x03]).input = .byte 0x03 :: []) := by decide

/-- V20: the worst case, and one byte short of it. -/
theorem witness_FlushResynchronises :
    (∃ s : State, registersReachable s.phase s.len s.cnt = true ∧
      s.input = byteEvents (List.replicate 512 0x00) ++ []) ∧
    ∃ (s : State) (bs : List Byte), s.phase = .waitPayload ∧ s.len = 0x0200 ∧ s.cnt = 0 ∧ bs.length = 511 ∧
      s.input = byteEvents bs ++ [] :=
  ⟨⟨st .waitPayload 0x0200 0 (byteEvents (List.replicate 512 0x00) ++ []), rfl, rfl⟩,
    st .waitPayload 0x0200 0 (byteEvents (List.replicate 511 0x00) ++ []), List.replicate 511 0x00, rfl, rfl, rfl,
    List.length_replicate, rfl⟩

/-- V19. -/
theorem witness_PeriodicStreamNeverRecovers :
    ∃ s : State, s.phase = .waitLenHigh ∧ s.len = 0x0002 ∧ s.cnt = 0 ∧
      s.input = byteEvents ((List.replicate 2 [0xFF, 0x02, 0x00, 0xFF, 0x02]).flatten) ++ [] :=
  ⟨st .waitLenHigh 0x0002 0 (byteEvents ((List.replicate 2 [0xFF, 0x02, 0x00, 0xFF, 0x02]).flatten) ++ []),
    rfl, rfl, rfl, rfl⟩

/-- P3. -/
theorem witness_StalledPayloadSwallowsAFrame :
    registersReachable .waitPayload 0x000A 2 = true ∧
      (2 : Cnt).toNat + 3 + ([0x99, 0x88] : List Byte).length < (0x000A : Len).toNat ∧
      (st .waitPayload 0x000A 2 [.frame 0x02 0x00 [0x99, 0x88]]).input = .frame 0x02 0x00 [0x99, 0x88] :: [] := by decide

theorem witness_PayloadValueSteersNothing :
    step { st .waitPayload 2 0 [] with input := .byte 0xFF :: [] } = .next (st1 .waitPayload 2 1 [] 1 0xFF) ∧
      step { st .waitPayload 2 0 [] with input := .byte 0x00 :: [] } = .next (st1 .waitPayload 2 1 [] 1 0x00) :=
  ⟨rfl, rfl⟩

/-- V23, first, fourth and fifth row: DATA for channels 513 and 0, and DATA_LAST for channel 0. -/
theorem witness_StrayPayloadByteFreesTheUniverse :
    ((st .waitPayload 0x0005 512 [.byte 0x01]).input = .byte 0x01 :: [] ∧ ((512 : Cnt) + 1).toNat = 513 ∧
      (st .waitPayload 0x0005 512 [.byte 0x01]).fetch = .data 0x01) ∧
    ((st .waitPayload 0x0400 1023 [.byte 0xAB]).input = .byte 0xAB :: [] ∧ ((1023 : Cnt) + 1).toNat = 0 ∧
      (st .waitPayload 0x0400 1023 [.byte 0xAB]).fetch = .data 0xAB) ∧
    ((st .waitPayload 0x0000 1023 [.byte 0xAB]).input = .byte 0xAB :: [] ∧
      (st .waitPayload 0x0000 1023 [.byte 0xAB]).fetch = .dataLast 0xAB) :=
  ⟨⟨rfl, rfl, rfl⟩, ⟨rfl, rfl, rfl⟩, rfl, rfl⟩

/-- Two machines whose universes differ. -/
theorem witness_UniverseIsNeverRead :
    sameRegisters (st .waitPayload 0x0200 511 [.byte 0x02]) (st1 .waitPayload 0x0200 511 [.byte 0x02] 7 0x99) ∧
      Sys2Proof.core.run 1 (st .waitPayload 0x0200 511 [.byte 0x02]) =
        .next (st1 .waitStart 0x0200 512 [] 512 0x02) ∧
      Sys2Proof.core.run 1 (st1 .waitPayload 0x0200 511 [.byte 0x02] 7 0x99) =
        .next { st .waitStart 0x0200 512 [] with
          channels := [(7, 0x99), (512, 0x02)], trace := [⟨7, 0x99⟩, ⟨512, 0x02⟩] } :=
  ⟨⟨rfl, rfl, rfl⟩, rfl, rfl⟩

end Sys2Proof.Tests
end

-- ==== Proofs of the family 40_sync ====
section
/-! The cycle of an accepted byte (spec 10_state.md rules R31 and R32, 30_encoding.md rule R65): its word, its operation,
the events left after it and the ports. They hold in every phase, except
that the ports' lemma is for the phases outside the payload. -/

namespace Sys2Proof.Machine

variable {s : State} {b : Byte} {rest : List Event}

/-- The word of an accepted byte begins `01` and the phase's code (R65). -/
theorem toBits_of_accepted (p : Phase) (b : Byte) :
    ({ rst := false, inValid := true, phase := p, inData := b } : CycleWord).toBits = (0b01#2 ++ p.code) ++ b := by
  calc
    _ = (0b01#2 ++ (p.code ++ b) : BitVec 12) :=
      (BitVec.append_assoc (x₁ := BitVec.ofBool false) (x₂ := BitVec.ofBool true) (x₃ := p.code ++ b)).symm
    _ = (0b01#2 ++ p.code) ++ b := BitVec.append_assoc.symm

theorem State.cycleWord_of_byte (h : s.input = .byte b :: rest) :
    s.cycleWord = { rst := false, inValid := true, phase := s.phase, inData := b } := by
  simp [State.cycleWord, h, resetNow, offered]

/-- A single byte is no frame event, so the cycle's operation is decoded from its word. -/
theorem State.fetch_of_byte (h : s.input = .byte b :: rest) :
    s.fetch = decodeCycle { rst := false, inValid := true, phase := s.phase, inData := b } s.len s.cnt := by
  rw [State.fetch_of_cycle (State.wholeFrame_none (by simp [h])), State.cycleWord_of_byte h]

theorem State.advance_of_byte (h : s.input = .byte b :: rest) : s.advance = { s with input := rest } := by
  rw [State.advance_of_cycle (by simp [h]), h]
  rfl

/-- The step of an accepted byte runs its operation, and the byte is gone. -/
theorem step_of_byte (h : s.input = .byte b :: rest) : step s = exec s.fetch { s with input := rest } := by
  rw [step, State.advance_of_byte h]

/-- Outside the payload a byte is taken and no write is on the port (R32). -/
theorem State.outputs_of_byte (h : s.input = .byte b :: rest) (hp : s.phase ≠ .waitPayload) :
    s.outputs = { inReady := true, write := none, frameActive := false } := by
  simp [State.outputs, State.cycleWord_of_byte h, Machine.frameActive, hp]

end Sys2Proof.Machine
end

section
/-! START and SKIP (spec 40_sync.md rules R80 and R81). -/

namespace Sys2Proof.Machine

variable {s : State} {b : Byte} {rest : List Event}

theorem exec_start (s : State) : exec .start s = .next { s with len := 0x0000, cnt := 0, phase := .waitLenLow } := rfl

theorem exec_skip (b : Byte) (s : State) : exec (.skip b) s = .next s := rfl

/-- In `WaitStart` the one question is whether the byte is the marker (R66 rows 3 and 4). -/
theorem State.fetch_in_waitStart (hp : s.phase = .waitStart) (h : s.input = .byte b :: rest) :
    s.fetch = if b = Config.marker then .start else .skip b := by
  rw [State.fetch_of_byte h, hp]
  rfl

/-- The cycle word of a byte read in `WaitStart` (R66 rows 3 and 4). -/
theorem State.toBits_in_waitStart (hp : s.phase = .waitStart) (h : s.input = .byte b :: rest) :
    s.cycleWord.toBits = 0x4#4 ++ b := by
  rw [State.cycleWord_of_byte h, toBits_of_accepted, hp]
  rfl

/-- Settles O5: `0xFF` is the marker, so the decoder selects START. -/
theorem startClearsLengthAndCount : Obligations.StartClearsLengthAndCount := by
  intro s rest
  refine ⟨exec_start s, fun hp hin => ?_⟩
  have hfetch : s.fetch = .start := (State.fetch_in_waitStart hp hin).trans (if_pos rfl)
  refine ⟨State.toBits_in_waitStart hp hin, hfetch, ?_, State.outputs_of_byte hin (by simp [hp]), rfl, rfl⟩
  rw [step_of_byte hin, hfetch]

/-- Settles O6: a byte that is not the marker selects SKIP. -/
theorem skipDropsTheByte : Obligations.SkipDropsTheByte := by
  intro s b rest
  refine ⟨exec_skip b s, fun hp hb hin => ?_⟩
  have hfetch : s.fetch = .skip b := (State.fetch_in_waitStart hp hin).trans (if_neg hb)
  refine ⟨State.toBits_in_waitStart hp hin, hfetch, ?_, State.outputs_of_byte hin (by simp [hp]), rfl⟩
  rw [step_of_byte hin, hfetch]

end Sys2Proof.Machine
end

-- ==== Proofs of the family 41_length ====
section
/-! The length that two header bytes make (spec 30_encoding.md rules R62 and R67): the high byte in front of the low byte. -/

namespace Sys2Proof.Machine

/-- The low byte of a register is its lowest eight bits (R91). -/
theorem lowByte_eq_extractLsb' (len : Len) : lowByte len = len.extractLsb' 0 8 := by
  rw [lowByte, BitVec.setWidth_eq_extractLsb' (by decide)]

/-- The shift and the `or` of R62 put the high byte in front of the low byte: their bits do not overlap. -/
theorem combineLen_eq_append (hi lo : Byte) : combineLen hi lo = hi ++ lo := by
  rw [combineLen, BitVec.append_def, BitVec.shiftLeftZeroExtend_eq]
  rfl

/-- The value of a length is 256 times its high byte and its low byte (R62). -/
theorem append_toNat (hi lo : Byte) : (hi ++ lo).toNat = 256 * hi.toNat + lo.toNat := by
  rw [BitVec.toNat_append, ← Nat.shiftLeft_add_eq_or_of_lt lo.isLt, Nat.shiftLeft_eq]
  omega

/-- The range test read off the two bytes: a high byte above 2 is always too much (R67). -/
theorem append_in_range_iff (hi lo : Byte) :
    1 ≤ (hi ++ lo).toNat ∧ (hi ++ lo).toNat ≤ 512 ↔ (hi = 0 ∧ lo ≠ 0) ∨ hi = 1 ∨ (hi = 2 ∧ lo = 0) := by
  rw [append_toNat]
  bv_omega

end Sys2Proof.Machine
end

section
/-! LENHI_OK (spec 41_length.md rule R91). -/

namespace Sys2Proof.Machine

variable {s : State} {b : Byte} {rest : List Event}

theorem exec_lenhiOk (b : Byte) (s : State) :
    exec (.lenhiOk b) s = .next { s with len := b ++ s.len.extractLsb' 0 8, cnt := 0, phase := .waitPayload } := by
  rw [← lowByte_eq_extractLsb', ← combineLen_eq_append]
  rfl

/-- In `WaitLenHigh` the one question is whether the validator accepts the combined length (R66 rows 6 and 7). -/
theorem State.fetch_in_waitLenHigh (hp : s.phase = .waitLenHigh) (h : s.input = .byte b :: rest) :
    s.fetch = if lenAccepted (b ++ s.len.extractLsb' 0 8) then .lenhiOk b else .lenhiRej b := by
  rw [State.fetch_of_byte h, hp, ← lowByte_eq_extractLsb', ← combineLen_eq_append]
  rfl

/-- The cycle word of a byte read in `WaitLenHigh`, whatever the guard says (R66 rows 6 and 7). -/
theorem State.toBits_in_waitLenHigh (hp : s.phase = .waitLenHigh) (h : s.input = .byte b :: rest) :
    s.cycleWord.toBits = 0x6#4 ++ b := by
  rw [State.cycleWord_of_byte h, toBits_of_accepted, hp]
  rfl

/-- Settles O8: a length in `1..512` passes the validator, so the decoder selects LENHI_OK; the guard's two readings agree
because a length is 256 times its high byte and its low byte. -/
theorem lenhiOkAcceptsTheFrame : Obligations.LenhiOkAcceptsTheFrame := by
  intro s b rest
  refine ⟨exec_lenhiOk b s, fun hp hin hmin hmax => ?_, append_in_range_iff b _⟩
  have hfetch : s.fetch = .lenhiOk b :=
    (State.fetch_in_waitLenHigh hp hin).trans (if_pos ((lenAccepted_iff _).mpr ⟨hmin, hmax⟩))
  refine ⟨State.toBits_in_waitLenHigh hp hin, hfetch, ?_, State.outputs_of_byte hin (by simp [hp]), rfl, rfl⟩
  rw [step_of_byte hin, hfetch]

end Sys2Proof.Machine
end

-- ==== Proofs of the family 42_payload ====
section
/-! The cycle of a payload byte, which DATA and DATA_LAST share (spec 42_payload.md rules R100 to R102): its word, its ports,
the operation the end-of-frame test selects, and the store. -/

namespace Sys2Proof.Machine

variable {s : State} {b : Byte} {rest : List Event}

/-- In `WaitPayload` the one question is whether this byte completes the length (R66 rows 8 and 9). -/
theorem State.fetch_in_waitPayload (hp : s.phase = .waitPayload) (h : s.input = .byte b :: rest) :
    s.fetch = if endOfFrame s.cnt s.len then .dataLast b else .data b := by
  rw [State.fetch_of_byte h, hp]
  rfl

/-- The cycle word of a byte read in `WaitPayload`, whatever the guard says (R66 rows 8 and 9). -/
theorem State.toBits_in_waitPayload (hp : s.phase = .waitPayload) (h : s.input = .byte b :: rest) :
    s.cycleWord.toBits = 0x7#4 ++ b := by
  rw [State.cycleWord_of_byte h, toBits_of_accepted, hp]
  rfl

/-- A payload byte is on the write port in the cycle that accepts it (R32). -/
theorem State.outputs_in_waitPayload (hp : s.phase = .waitPayload) (h : s.input = .byte b :: rest) :
    s.outputs = { inReady := true, write := some ⟨s.cnt + 1, b⟩, frameActive := true } := by
  simp [State.outputs, State.cycleWord_of_byte h, Machine.frameActive, hp]

/-- The store moves one cell only, as `ChanWrite` does: counting the byte leaves the universe alone (R41, R102). -/
theorem State.storePayload_channelUpdated (s : State) (b : Byte) (hmin : 1 ≤ (s.cnt + 1).toNat)
    (hmax : (s.cnt + 1).toNat ≤ 512) : channelUpdated s (s.storePayload b) (s.cnt + 1) b :=
  s.chanWrite_existing b ((channelExists_iff _).mpr ⟨hmin, hmax⟩)

/-- On reachable registers the count is below the length, so `cnt + 1` does not wrap and is a channel of the frame (R102). -/
theorem nextChan_bounds_of_reachable {len : Len} {cnt : Cnt}
    (h : registersReachable .waitPayload len cnt = true) :
    1 ≤ (cnt + 1).toNat ∧ (cnt + 1).toNat ≤ len.toNat ∧ len.toNat ≤ 512 := by
  obtain ⟨⟨_, hlen⟩, hcnt⟩ : (1 ≤ len.toNat ∧ len.toNat ≤ 512) ∧ cnt.toNat < len.toNat := by
    simpa [registersReachable] using h
  have hnext : (cnt + 1).toNat = cnt.toNat + 1 := nextChan_toNat (by omega)
  omega

/-- The end-of-frame test compares numbers: widening a channel number to 16 bits keeps its value (R118). -/
theorem setWidth_eq_len_iff (ch : Chan) (len : Len) : ch.setWidth 16 = len ↔ ch.toNat = len.toNat := by
  rw [← BitVec.toNat_inj, BitVec.toNat_setWidth_of_le (by decide)]

end Sys2Proof.Machine
end

section
/-! DATA and DATA_LAST (spec 42_payload.md rules R100 and R101). -/

namespace Sys2Proof.Machine

theorem exec_data (b : Byte) (s : State) : exec (.data b) s = .next (s.storePayload b) := rfl

theorem exec_dataLast (b : Byte) (s : State) : exec (.dataLast b) s = .next (s.storePayload b).resync := rfl

/-- Settles O10: `cnt + 1` is not the length, so the decoder selects DATA, and its channel is below the length. -/
theorem dataWritesItsChannel : Obligations.DataWritesItsChannel := by
  intro s b rest
  refine ⟨⟨s.storePayload b, exec_data b s, s.storePayload_phase b, s.storePayload_len b, s.storePayload_cnt b,
    s.storePayload_input b, s.storePayload_trace b, s.storePayload_channelUpdated b⟩, fun hp hin hmore => ?_⟩
  have hfetch : s.fetch = .data b :=
    (State.fetch_in_waitPayload hp hin).trans (if_neg (mt (endOfFrame_iff _ _).mp hmore))
  refine ⟨State.toBits_in_waitPayload hp hin, hfetch, ?_, State.outputs_in_waitPayload hp hin, fun hreach => ?_, rfl⟩
  · rw [step_of_byte hin, hfetch]
  · obtain ⟨hmin, hle, hlen⟩ := nextChan_bounds_of_reachable (hp ▸ hreach)
    have hne : (s.cnt + 1).toNat ≠ s.len.toNat := mt (setWidth_eq_len_iff _ _).mpr hmore
    omega

/-- Settles O11: `cnt + 1` is the length, so the decoder selects DATA_LAST, and its channel is the length's. The return to
`WaitStart` leaves the stored byte as it is. -/
theorem dataLastWritesAndEndsTheFrame : Obligations.DataLastWritesAndEndsTheFrame := by
  intro s b rest
  refine ⟨⟨(s.storePayload b).resync, exec_dataLast b s, State.resync_phase _, s.storePayload_len b,
    s.storePayload_cnt b, s.storePayload_input b, s.storePayload_trace b, s.storePayload_channelUpdated b⟩,
    fun hp hin hlast => ?_⟩
  have hfetch : s.fetch = .dataLast b :=
    (State.fetch_in_waitPayload hp hin).trans (if_pos ((endOfFrame_iff _ _).mpr hlast))
  refine ⟨State.toBits_in_waitPayload hp hin, hfetch, ?_, State.outputs_in_waitPayload hp hin, rfl, rfl,
    fun hreach => ?_⟩
  · rw [step_of_byte hin, hfetch]
  · obtain ⟨hmin, hle, hlen⟩ := nextChan_bounds_of_reachable (hp ▸ hreach)
    exact ⟨hmin, hle.trans hlen⟩

end Sys2Proof.Machine
end

-- ==== Proofs of the family other ====
section
/-! The cycle word as four bits in front of the byte, and what the decoder selects by its fields (spec 30_encoding.md
rules R65, R66 and R68). -/

namespace Sys2Proof

/-- The twelve bits are read back from the fields (R65). -/
@[simp] theorem CycleWord.toBits_ofBits (w : BitVec 12) : (CycleWord.ofBits w).toBits = w := by
  have hbit : ∀ i, BitVec.ofBool (w.getLsbD i) = w.extractLsb' i 1 := fun i => by
    ext j hj
    obtain rfl : j = 0 := by omega
    simp
  simp only [CycleWord.toBits, CycleWord.ofBits, Phase.code_ofCode, hbit]
  rw [BitVec.extractLsb'_append_extractLsb'_eq_extractLsb' (start₁ := 0) (len₁ := 8) rfl,
    BitVec.extractLsb'_append_extractLsb'_eq_extractLsb' (start₁ := 0) (len₁ := 10) rfl,
    BitVec.extractLsb'_append_extractLsb'_eq_extractLsb' (start₁ := 0) (len₁ := 11) rfl, BitVec.extractLsb'_eq_self]

/-- The four bits in front of the byte: `rst`, `in_valid` and the phase's code (R65). -/
def CycleWord.nibble (c : CycleWord) : BitVec 4 := BitVec.ofBool c.rst ++ (BitVec.ofBool c.inValid ++ c.phase.code)

theorem CycleWord.toBits_eq_nibble_append (c : CycleWord) : c.toBits = c.nibble ++ c.inData := by
  calc c.toBits
    _ = (BitVec.ofBool c.rst ++ ((BitVec.ofBool c.inValid ++ c.phase.code) ++ c.inData) : BitVec 12) :=
      congrArg (BitVec.ofBool c.rst ++ ·) BitVec.append_assoc.symm
    _ = c.nibble ++ c.inData := BitVec.append_assoc.symm

/-- The decoder's choice as a relation: one rule per row of R66, with the fields that its pattern fixes and its guard.
-/
inductive CycleWord.Selects (c : CycleWord) (len : Len) (cnt : Cnt) : Instr → Prop
  | reset (hrst : c.rst = true) : Selects c len cnt .reset
  | idle (hrst : c.rst = false) (hvalid : c.inValid = false) : Selects c len cnt .idle
  | start (hrst : c.rst = false) (hvalid : c.inValid = true) (hp : c.phase = .waitStart)
      (hb : c.inData = Config.marker) : Selects c len cnt .start
  | skip (hrst : c.rst = false) (hvalid : c.inValid = true) (hp : c.phase = .waitStart)
      (hb : c.inData ≠ Config.marker) : Selects c len cnt (.skip c.inData)
  | lenlo (hrst : c.rst = false) (hvalid : c.inValid = true) (hp : c.phase = .waitLenLow) :
      Selects c len cnt (.lenlo c.inData)
  | lenhiOk (hrst : c.rst = false) (hvalid : c.inValid = true) (hp : c.phase = .waitLenHigh)
      (ha : Machine.lenAccepted (Machine.combineLen c.inData (Machine.lowByte len)) = true) :
      Selects c len cnt (.lenhiOk c.inData)
  | lenhiRej (hrst : c.rst = false) (hvalid : c.inValid = true) (hp : c.phase = .waitLenHigh)
      (ha : Machine.lenAccepted (Machine.combineLen c.inData (Machine.lowByte len)) = false) :
      Selects c len cnt (.lenhiRej c.inData)
  | data (hrst : c.rst = false) (hvalid : c.inValid = true) (hp : c.phase = .waitPayload)
      (he : Machine.endOfFrame cnt len = false) : Selects c len cnt (.data c.inData)
  | dataLast (hrst : c.rst = false) (hvalid : c.inValid = true) (hp : c.phase = .waitPayload)
      (he : Machine.endOfFrame cnt len = true) : Selects c len cnt (.dataLast c.inData)

variable {c : CycleWord} {len : Len} {cnt : Cnt} {i : Instr}

/-- What a rule selects, the decoder answers; so the rules exclude each other (R68). -/
theorem CycleWord.Selects.decodeCycle_eq (h : c.Selects len cnt i) : decodeCycle c len cnt = i := by
  cases h <;> simp [decodeCycle, *]

/-- Some rule applies to every cycle word and every `len` and `cnt` (R68). -/
theorem decodeCycle_selects (c : CycleWord) (len : Len) (cnt : Cnt) : c.Selects len cnt (decodeCycle c len cnt) := by
  have total : ∃ i, c.Selects len cnt i := by
    rcases hrst : c.rst with _ | _
    · rcases hvalid : c.inValid with _ | _
      · exact ⟨_, .idle hrst hvalid⟩
      · rcases hp : c.phase with _ | _ | _ | _
        · by_cases hb : c.inData = Config.marker
          · exact ⟨_, .start hrst hvalid hp hb⟩
          · exact ⟨_, .skip hrst hvalid hp hb⟩
        · exact ⟨_, .lenlo hrst hvalid hp⟩
        · rcases ha : Machine.lenAccepted (Machine.combineLen c.inData (Machine.lowByte len)) with _ | _
          · exact ⟨_, .lenhiRej hrst hvalid hp ha⟩
          · exact ⟨_, .lenhiOk hrst hvalid hp ha⟩
        · rcases he : Machine.endOfFrame cnt len with _ | _
          · exact ⟨_, .data hrst hvalid hp he⟩
          · exact ⟨_, .dataLast hrst hvalid hp he⟩
    · exact ⟨_, .reset hrst⟩
  obtain ⟨i, hi⟩ := total
  exact hi.decodeCycle_eq ▸ hi

theorem selects_iff_decodeCycle_eq : c.Selects len cnt i ↔ decodeCycle c len cnt = i :=
  ⟨CycleWord.Selects.decodeCycle_eq, fun h => h ▸ decodeCycle_selects c len cnt⟩

end Sys2Proof
end

section
/-! Decoder and encoder (spec 30_encoding.md sections 1, 3 and 4). -/

namespace Sys2Proof

variable {c : CycleWord} {len : Len} {cnt : Cnt} {i : Instr}

theorem decode_toBits (c : CycleWord) (len : Len) (cnt : Cnt) :
    decode (.cycle c.toBits) len cnt = .ok (decodeCycle c len cnt) := by
  rw [decode, CycleWord.ofBits_toBits]

/-- The word that the encoder writes for a byte operation is the word of a cycle that accepts the byte in its phase. -/
theorem encode_of_accepted (h : c.Selects len cnt i) (hrst : c.rst = false) (hvalid : c.inValid = true) :
    encode i = .cycle c.toBits := by
  have hword (p : Phase) (hp : c.phase = p) : .cycle ((0b01#2 ++ p.code) ++ c.inData) = Encoding.cycle c.toBits := by
    rw [c.toBits_eq_nibble_append, CycleWord.nibble, hrst, hvalid, hp]
    cases p <;> rfl
  cases h with
  | reset h => simp [hrst] at h
  | idle _ h => simp [hvalid] at h
  | start _ _ hp hb => rw [← hword .waitStart hp, hb]; rfl
  | skip _ _ hp => exact hword .waitStart hp
  | lenlo _ _ hp => exact hword .waitLenLow hp
  | lenhiOk _ _ hp => exact hword .waitLenHigh hp
  | lenhiRej _ _ hp => exact hword .waitLenHigh hp
  | data _ _ hp => exact hword .waitPayload hp
  | dataLast _ _ hp => exact hword .waitPayload hp

/-- The encoding of an operation that a cycle with an accepted byte selects is decoded to that operation. -/
theorem decode_encode_of_accepted (p : Phase) (b : Byte)
    (h : (CycleWord.mk false true p b).Selects len cnt i) : decode (encode i) len cnt = .ok i := by
  rw [encode_of_accepted h rfl rfl, decode_toBits, h.decodeCycle_eq]

/-- Settles O20: every operation on a byte is selected by a cycle that accepts the byte in its phase, when the guard
holds; a frame is read back from its own bytes. -/
theorem decodeAfterEncodeIsIdentity : Obligations.DecodeAfterEncodeIsIdentity := by
  intro i len cnt hwf hguard
  cases i with
  | reset => rfl
  | idle => rfl
  | start => exact decode_encode_of_accepted .waitStart Config.marker (.start rfl rfl rfl rfl)
  | skip b =>
    exact decode_encode_of_accepted .waitStart b (.skip rfl rfl rfl (by simpa [Instr.guardHolds] using hguard))
  | lenlo b => exact decode_encode_of_accepted .waitLenLow b (.lenlo rfl rfl rfl)
  | lenhiOk b => exact decode_encode_of_accepted .waitLenHigh b (.lenhiOk rfl rfl rfl hguard)
  | lenhiRej b =>
    exact decode_encode_of_accepted .waitLenHigh b
      (.lenhiRej rfl rfl rfl (by simpa [Instr.guardHolds] using hguard))
  | data b =>
    exact decode_encode_of_accepted .waitPayload b (.data rfl rfl rfl (by simpa [Instr.guardHolds] using hguard))
  | dataLast b => exact decode_encode_of_accepted .waitPayload b (.dataLast rfl rfl rfl hguard)
  | frame lo hi p =>
    have hlen : p.length = Machine.payloadLength lo hi := by simpa [WellFormed, Instr.check] using hwf
    have hwire := decodeWire_frameBytes lo hi p [] hlen
    rw [List.append_nil] at hwire
    simp [encode, decode, hwire]

/-- What the decoder selects is an instruction that the encoding holds, and its guard holds: a high byte above 2 is
never accepted and a high byte of 1 never rejected (R67). -/
theorem CycleWord.Selects.wellFormed_and_guardHolds (h : c.Selects len cnt i) :
    WellFormed i ∧ i.guardHolds len cnt = true := by
  have hlen : Machine.lenAccepted (Machine.combineLen c.inData (Machine.lowByte len)) = true ↔
      (c.inData = 0 ∧ Machine.lowByte len ≠ 0) ∨ c.inData = 1 ∨ (c.inData = 2 ∧ Machine.lowByte len = 0) := by
    rw [Machine.combineLen_eq_append, Machine.lenAccepted_iff, Machine.append_in_range_iff]
  cases h with
  | reset => exact ⟨rfl, rfl⟩
  | idle => exact ⟨rfl, rfl⟩
  | start => exact ⟨rfl, rfl⟩
  | skip _ _ _ hb => exact ⟨if_neg hb, by simp [Instr.guardHolds, hb]⟩
  | lenlo => exact ⟨rfl, rfl⟩
  | lenhiOk _ _ _ ha =>
    refine ⟨if_neg ?_, ha⟩
    rcases hlen.mp ha with ⟨hb, _⟩ | hb | ⟨hb, _⟩ <;> simp [hb]
  | lenhiRej _ _ _ ha =>
    refine ⟨if_neg fun hb => ?_, by simp [Instr.guardHolds, ha]⟩
    exact Bool.false_ne_true (ha.symm.trans (hlen.mpr (.inr (.inl hb))))
  | data _ _ _ he => exact ⟨rfl, by simp [Instr.guardHolds, he]⟩
  | dataLast _ _ _ he => exact ⟨rfl, he⟩

/-- Settles O21: a word is the bits of its fields, and the decoder's rules name the fields. -/
theorem encodeAfterDecodeKeepsTheBits : Obligations.EncodeAfterDecodeKeepsTheBits := by
  intro w len cnt i h
  have hdec : decodeCycle (CycleWord.ofBits w) len cnt = i := Except.ok.inj h
  have hsel := selects_iff_decodeCycle_eq.mpr hdec
  obtain ⟨hwf, hguard⟩ := hsel.wellFormed_and_guardHolds
  refine ⟨hwf, hguard, fun h11 => ?_, fun h11 h10 => ?_, fun h11 h10 => ?_⟩
  · exact hdec.symm.trans (CycleWord.Selects.reset h11).decodeCycle_eq
  · exact hdec.symm.trans (CycleWord.Selects.idle h11 h10).decodeCycle_eq
  · rw [encode_of_accepted hsel h11 h10, CycleWord.toBits_ofBits]

/-- What the frame decoder accepts is a frame's own bytes and the bytes after it. -/
theorem decodeWire_eq_ok {bs more : List Byte} (h : decodeWire bs = .ok (i, more)) :
    ∃ lo hi p, i = .frame lo hi p ∧ p.length = Machine.payloadLength lo hi ∧
      bs = Machine.frameBytes lo hi p ++ more := by
  unfold decodeWire at h
  split at h
  · split at h
    · rename_i hm
      split at h
      · rename_i lo hi after
        split at h
        · rename_i hle
          cases h
          exact ⟨lo, hi, _, rfl, List.length_take_of_le hle, by simp [Machine.frameBytes, hm]⟩
        · cases h
      · cases h
    · cases h
  · cases h

/-- Accepted wire bytes are exactly one frame's. -/
theorem decode_wire_eq_ok {bs : List Byte} (h : decode (.wire bs) len cnt = .ok i) :
    ∃ lo hi p, i = .frame lo hi p ∧ p.length = Machine.payloadLength lo hi ∧ bs = Machine.frameBytes lo hi p := by
  rw [decode] at h
  split at h
  · rename_i hwire
    cases h
    simpa using decodeWire_eq_ok hwire
  · cases h
  · cases h

theorem wellFormed_frame_iff (lo hi : Byte) (p : List Byte) :
    WellFormed (.frame lo hi p) ↔ p.length = Machine.payloadLength lo hi := by
  simp [WellFormed, Instr.check]

/-- Settles O22: the wire decoder accepts a frame's own bytes only. -/
theorem wireBytesAreTheirFrame : Obligations.WireBytesAreTheirFrame := by
  intro bs len cnt i h
  obtain ⟨lo, hi, p, rfl, hlen, rfl⟩ := decode_wire_eq_ok h
  exact ⟨(wellFormed_frame_iff lo hi p).mpr hlen, rfl⟩

/-- Settles O23: each word is evaluated by the decoder. -/
theorem writtenWordsDecode : Obligations.WrittenWordsDecode :=
  ⟨rfl, rfl, rfl, rfl, rfl, rfl, rfl, rfl, rfl, rfl⟩

end Sys2Proof
end

section
/-! The operation table read row by row (spec 30_encoding.md rules R66 and R73). -/

namespace Sys2Proof

variable {c : CycleWord} {len : Len} {cnt : Cnt}

/-- A pattern that fixes no bit of the byte is matched by the four bits in front of it. -/
theorem matches_nibble_iff (n m k : BitVec 4) (b : Byte) :
    (((n ++ b : BitVec 12) &&& (m ++ 0#8)) == (k ++ 0#8)) = true ↔ n &&& m = k := by
  rw [beq_iff_eq, BitVec.and_append, BitVec.and_zero, BitVec.append_left_inj]

/-- What the four bits say about `rst`, `in_valid` and the phase. -/
theorem nibble_masks : ∀ (rst valid : Bool) (code other : BitVec 2),
    ((BitVec.ofBool rst ++ (BitVec.ofBool valid ++ code) : BitVec 4) &&& 0x8#4 = 0x8#4 ↔ rst = true) ∧
    ((BitVec.ofBool rst ++ (BitVec.ofBool valid ++ code) : BitVec 4) &&& 0xC#4 = 0x0#4 ↔
      rst = false ∧ valid = false) ∧
    ((BitVec.ofBool rst ++ (BitVec.ofBool valid ++ code) : BitVec 4) &&& 0xF#4 = 0b01#2 ++ other ↔
      rst = false ∧ valid = true ∧ code = other) := by
  decide

/-- The pattern of RESET (R66 row 1). -/
theorem matches_reset_iff (c : CycleWord) : (c.toBits &&& 0x800 == 0x800) = true ↔ c.rst = true := by
  rw [c.toBits_eq_nibble_append]
  exact (matches_nibble_iff c.nibble 0x8#4 0x8#4 c.inData).trans (nibble_masks _ _ _ 0).1

/-- The pattern of IDLE (R66 row 2). -/
theorem matches_idle_iff (c : CycleWord) :
    (c.toBits &&& 0xC00 == 0x000) = true ↔ c.rst = false ∧ c.inValid = false := by
  rw [c.toBits_eq_nibble_append]
  exact (matches_nibble_iff c.nibble 0xC#4 0x0#4 c.inData).trans (nibble_masks _ _ _ 0).2.1

/-- The patterns of the byte operations but START: a byte is accepted in the phase `p` (R66 rows 4 to 9). -/
theorem matches_accepted_iff (c : CycleWord) (p : Phase) :
    (c.toBits &&& 0xF00 == (0b01#2 ++ p.code) ++ 0#8) = true ↔
      c.rst = false ∧ c.inValid = true ∧ c.phase = p := by
  have hcode : c.phase.code = p.code ↔ c.phase = p :=
    ⟨fun h => by rw [← Phase.ofCode_code c.phase, h, Phase.ofCode_code], congrArg Phase.code⟩
  rw [c.toBits_eq_nibble_append, ← hcode]
  exact (matches_nibble_iff c.nibble 0xF#4 _ c.inData).trans (nibble_masks _ _ _ p.code).2.2

/-- The pattern of START is one word (R66 row 3). -/
theorem matches_start_iff (c : CycleWord) :
    (c.toBits &&& 0xFFF == 0x4FF) = true ↔
      c.rst = false ∧ c.inValid = true ∧ c.phase = .waitStart ∧ c.inData = Config.marker := by
  have hall : c.toBits &&& 0xFFF = c.toBits := BitVec.and_allOnes
  have hword : c.toBits = 0x4FF ↔ c = ⟨false, true, .waitStart, Config.marker⟩ :=
    ⟨fun h => by rw [← c.ofBits_toBits, h]; rfl, fun h => by rw [h]; rfl⟩
  rw [hall, beq_iff_eq, hword]
  exact Iff.of_eq (CycleWord.mk.injEq ..)

/-- A byte operation's row other than START: its pattern fixes the phase, and its guard is left to the rule. -/
theorem accepted_row_iff {i : Instr} {p : Phase}
    (hsel : c.rst = false → c.inValid = true → c.phase = p → i.guardHolds len cnt = true → c.Selects len cnt i)
    (hfields : c.Selects len cnt i → c.rst = false ∧ c.inValid = true ∧ c.phase = p) :
    (c.toBits &&& 0xF00 == (0b01#2 ++ p.code) ++ 0#8) = true ∧ i.guardHolds len cnt = true ↔
      c.Selects len cnt i := by
  rw [matches_accepted_iff]
  exact ⟨fun ⟨⟨hrst, hvalid, hp⟩, hg⟩ => hsel hrst hvalid hp hg,
    fun h => ⟨hfields h, h.wellFormed_and_guardHolds.2⟩⟩

/-- A row of the table is selected exactly when the decoder answers its operation (R66, R68, R73). -/
theorem row_selects_iff (c : CycleWord) (len : Len) (cnt : Cnt) {r : OpRow} (hr : r ∈ opRows) :
    r.selects c.toBits len cnt = true ↔ decodeCycle c len cnt = r.build c.inData := by
  have hlow : c.toBits.extractLsb' 0 8 = c.inData := congrArg CycleWord.inData c.ofBits_toBits
  rw [← selects_iff_decodeCycle_eq, OpRow.selects, hlow, Bool.and_eq_true, OpRow.matchesWord]
  simp only [opRows, List.mem_cons, List.not_mem_nil, or_false] at hr
  rcases hr with rfl | rfl | rfl | rfl | rfl | rfl | rfl | rfl | rfl
  · refine ⟨fun ⟨hm, hg⟩ => ?_, fun h => ⟨?_, h.wellFormed_and_guardHolds.2⟩⟩
    · exact .reset ((matches_reset_iff c).mp hm)
    · cases h with | reset hrst => exact (matches_reset_iff c).mpr hrst
  · refine ⟨fun ⟨hm, hg⟩ => ?_, fun h => ⟨?_, h.wellFormed_and_guardHolds.2⟩⟩
    · obtain ⟨hrst, hvalid⟩ := (matches_idle_iff c).mp hm
      exact .idle hrst hvalid
    · cases h with | idle hrst hvalid => exact (matches_idle_iff c).mpr ⟨hrst, hvalid⟩
  · refine ⟨fun ⟨hm, hg⟩ => ?_, fun h => ⟨?_, h.wellFormed_and_guardHolds.2⟩⟩
    · obtain ⟨hrst, hvalid, hp, hb⟩ := (matches_start_iff c).mp hm
      exact .start hrst hvalid hp hb
    · cases h with | start hrst hvalid hp hb => exact (matches_start_iff c).mpr ⟨hrst, hvalid, hp, hb⟩
  · exact accepted_row_iff (fun hrst hvalid hp hg => .skip hrst hvalid hp (by simpa [Instr.guardHolds] using hg))
      (fun h => by cases h with | skip hrst hvalid hp => exact ⟨hrst, hvalid, hp⟩)
  · exact accepted_row_iff (fun hrst hvalid hp _ => .lenlo hrst hvalid hp)
      (fun h => by cases h with | lenlo hrst hvalid hp => exact ⟨hrst, hvalid, hp⟩)
  · exact accepted_row_iff (fun hrst hvalid hp hg => .lenhiOk hrst hvalid hp hg)
      (fun h => by cases h with | lenhiOk hrst hvalid hp => exact ⟨hrst, hvalid, hp⟩)
  · exact accepted_row_iff (fun hrst hvalid hp hg => .lenhiRej hrst hvalid hp (by simpa [Instr.guardHolds] using hg))
      (fun h => by cases h with | lenhiRej hrst hvalid hp => exact ⟨hrst, hvalid, hp⟩)
  · exact accepted_row_iff (fun hrst hvalid hp hg => .data hrst hvalid hp (by simpa [Instr.guardHolds] using hg))
      (fun h => by cases h with | data hrst hvalid hp => exact ⟨hrst, hvalid, hp⟩)
  · exact accepted_row_iff (fun hrst hvalid hp hg => .dataLast hrst hvalid hp hg)
      (fun h => by cases h with | dataLast hrst hvalid hp => exact ⟨hrst, hvalid, hp⟩)

/-- The table names its rows as the operations they build. -/
theorem rowName_build {r : OpRow} (hr : r ∈ opRows) (b : Byte) :
    Laws.EncodeMatchesRow.rowName (r.build b) = r.mnemonic := by
  simp only [opRows, List.mem_cons, List.not_mem_nil, or_false] at hr
  rcases hr with rfl | rfl | rfl | rfl | rfl | rfl | rfl | rfl | rfl <;> rfl

/-- Every operation that the decoder answers is built by a row. -/
theorem exists_row_of_decodeCycle (c : CycleWord) (len : Len) (cnt : Cnt) :
    ∃ r ∈ opRows, decodeCycle c len cnt = r.build c.inData := by
  have hsel := decodeCycle_selects c len cnt
  generalize decodeCycle c len cnt = i at hsel
  cases hsel <;> simp [opRows]

/-- Settles O18: the first selected row builds what the decoder answers, since every selected row does. -/
theorem decoderFollowsTheTable : Obligations.DecoderFollowsTheTable := by
  intro w len cnt
  obtain ⟨c, rfl⟩ : ∃ c : CycleWord, w = c.toBits := ⟨_, (CycleWord.toBits_ofBits w).symm⟩
  refine ⟨decodeCycle c len cnt, ?_, decode_toBits c len cnt⟩
  have hlow : c.toBits.extractLsb' 0 8 = c.inData := congrArg CycleWord.inData c.ofBits_toBits
  rcases hfind : opRows.find? (fun r => r.selects c.toBits len cnt) with _ | r
  · obtain ⟨r, hr, hbuild⟩ := exists_row_of_decodeCycle c len cnt
    exact absurd ((row_selects_iff c len cnt hr).mpr hbuild) (List.find?_eq_none.mp hfind r hr)
  · have hfound : r.selects c.toBits len cnt = true :=
      List.find?_some (p := fun r : OpRow => r.selects c.toBits len cnt) hfind
    have hbuild := (row_selects_iff c len cnt (List.mem_of_find?_eq_some hfind)).mp hfound
    rw [decodeByTable, hfind, Option.map_some, hlow, hbuild]

/-- Settles O19: a selected row builds the decoder's answer, and the answer names its row. -/
theorem exactlyOneRowIsSelected : Obligations.ExactlyOneRowIsSelected := by
  intro w len cnt
  obtain ⟨c, rfl⟩ : ∃ c : CycleWord, w = c.toBits := ⟨_, (CycleWord.toBits_ofBits w).symm⟩
  obtain ⟨r, hr, hbuild⟩ := exists_row_of_decodeCycle c len cnt
  refine ⟨r, hr, (row_selects_iff c len cnt hr).mpr hbuild, fun r' hr' hsel' => ?_⟩
  have hbuild' := (row_selects_iff c len cnt hr').mp hsel'
  rw [← rowName_build hr' c.inData, ← rowName_build hr c.inData, ← hbuild, ← hbuild']

end Sys2Proof
end

section
/-! The length and its validator (spec 30_encoding.md rules R62 and R67). -/

namespace Sys2Proof.Machine

/-- The length exceeds 512 exactly when bits 15:10 are not all zero, or bit 9 is set and bits 8:0 are not all zero. -/
theorem lt_toNat_iff_bits (L : Len) :
    512 < L.toNat ↔ L.extractLsb' 10 6 ≠ 0 ∨ (L.getLsbD 9 = true ∧ L.extractLsb' 0 9 ≠ 0) := by
  have hhigh : L.extractLsb' 10 6 ≠ 0 ↔ L.toNat / 1024 % 64 ≠ 0 := by
    rw [Ne, ← BitVec.toNat_inj, BitVec.extractLsb'_toNat, Nat.shiftRight_eq_div_pow]; simp
  have hlow : L.extractLsb' 0 9 ≠ 0 ↔ L.toNat % 512 ≠ 0 := by
    rw [Ne, ← BitVec.toNat_inj, BitVec.extractLsb'_toNat]; simp
  have hbit : L.getLsbD 9 = true ↔ L.toNat / 512 % 2 = 1 := by
    rw [← BitVec.testBit_toNat, Nat.testBit_eq_decide_div_mod_eq]; simp
  rw [hhigh, hlow, hbit]
  have := L.isLt
  omega

theorem lenAcceptedBytes_iff (hi lo : Byte) :
    lenAcceptedBytes hi lo = true ↔ (hi = 0 ∧ lo ≠ 0) ∨ hi = 1 ∨ (hi = 2 ∧ lo = 0) := by
  simp [lenAcceptedBytes, or_assoc]

/-- Settles O24: the length is its two bytes side by side, and each reading of the validator is a range of numbers. -/
theorem lengthIsAssembledAndValidated : Obligations.LengthIsAssembledAndValidated := by
  intro hi lo
  have hnat : (combineLen hi lo).toNat = 256 * hi.toNat + lo.toNat := by
    rw [combineLen_eq_append, append_toNat]
  refine ⟨hnat, hnat ▸ lenAccepted_iff _, ?_, lt_toNat_iff_bits _⟩
  rw [Bool.eq_iff_iff, lenAcceptedBytes_iff, lenAccepted_iff, combineLen_eq_append, append_in_range_iff]

end Sys2Proof.Machine
end

section
/-! What an accepted byte does (spec 43_stream_properties.md rule R110): one equation per case of the byte-step
function, and the operation that is selected with it. -/

namespace Sys2Proof.Machine

variable {s : State} {b : Byte}

theorem State.stepByte_marker (hp : s.phase = .waitStart) :
    s.stepByte Config.marker = { s with phase := .waitLenLow, len := 0x0000, cnt := 0 } := by
  simp [State.stepByte, hp]

theorem State.stepByte_noise (hp : s.phase = .waitStart) (hb : b ≠ Config.marker) : s.stepByte b = s := by
  simp [State.stepByte, hp, hb]

theorem State.stepByte_lenlo (hp : s.phase = .waitLenLow) :
    s.stepByte b = { s with phase := .waitLenHigh, len := zextLen b } := by
  simp [State.stepByte, hp, zextLen]

theorem State.stepByte_lenhiOk (hp : s.phase = .waitLenHigh)
    (ha : lenAccepted (combineLen b (lowByte s.len)) = true) :
    s.stepByte b = { s with phase := .waitPayload, len := combineLen b (lowByte s.len), cnt := 0 } := by
  have hin : ¬(combineLen b (lowByte s.len) = 0 ∨ 512 < (combineLen b (lowByte s.len)).toNat) := by
    rw [← lenAccepted_false_iff, ha]; decide
  simp only [State.stepByte, hp, if_neg hin]

theorem State.stepByte_lenhiRej (hp : s.phase = .waitLenHigh)
    (ha : lenAccepted (combineLen b (lowByte s.len)) = false) :
    s.stepByte b = { s with phase := .waitStart, len := combineLen b (lowByte s.len) } := by
  simp only [State.stepByte, hp, if_pos ((lenAccepted_false_iff _).mp ha)]

theorem State.stepByte_data (hp : s.phase = .waitPayload) (he : endOfFrame s.cnt s.len = false) :
    s.stepByte b = s.storePayload b := by
  have hne : ¬(s.cnt + 1).setWidth 16 = s.len := by rw [← endOfFrame_iff, he]; decide
  simp only [State.stepByte, hp, if_neg hne]
  rfl

theorem State.stepByte_dataLast (hp : s.phase = .waitPayload) (he : endOfFrame s.cnt s.len = true) :
    s.stepByte b = (s.storePayload b).resync := by
  simp only [State.stepByte, hp, if_pos ((endOfFrame_iff _ _).mp he)]
  rfl

/-- The operation of a cycle that accepts the byte `b` (R66). -/
def State.byteInstr (s : State) (b : Byte) : Instr :=
  decodeCycle { rst := false, inValid := true, phase := s.phase, inData := b } s.len s.cnt

/-- One rule per byte operation: its condition, the operation that is selected, and the state that follows. -/
inductive State.ByteCase (s : State) (b : Byte) : Instr → State → Prop
  | start (hp : s.phase = .waitStart) (hb : b = Config.marker) :
      ByteCase s b .start { s with phase := .waitLenLow, len := 0x0000, cnt := 0 }
  | skip (hp : s.phase = .waitStart) (hb : b ≠ Config.marker) : ByteCase s b (.skip b) s
  | lenlo (hp : s.phase = .waitLenLow) : ByteCase s b (.lenlo b) { s with phase := .waitLenHigh, len := zextLen b }
  | lenhiOk (hp : s.phase = .waitLenHigh) (ha : lenAccepted (combineLen b (lowByte s.len)) = true) :
      ByteCase s b (.lenhiOk b) { s with phase := .waitPayload, len := combineLen b (lowByte s.len), cnt := 0 }
  | lenhiRej (hp : s.phase = .waitLenHigh) (ha : lenAccepted (combineLen b (lowByte s.len)) = false) :
      ByteCase s b (.lenhiRej b) { s with phase := .waitStart, len := combineLen b (lowByte s.len) }
  | data (hp : s.phase = .waitPayload) (he : endOfFrame s.cnt s.len = false) :
      ByteCase s b (.data b) (s.storePayload b)
  | dataLast (hp : s.phase = .waitPayload) (he : endOfFrame s.cnt s.len = true) :
      ByteCase s b (.dataLast b) (s.storePayload b).resync

/-- The rules describe the decoder and the byte-step function at once: both split by the same conditions. -/
theorem State.byteCase (s : State) (b : Byte) : s.ByteCase b (s.byteInstr b) (s.stepByte b) := by
  have hsel := decodeCycle_selects { rst := false, inValid := true, phase := s.phase, inData := b } s.len s.cnt
  rw [State.byteInstr]
  generalize decodeCycle { rst := false, inValid := true, phase := s.phase, inData := b } s.len s.cnt = i at hsel
  cases hsel with
  | reset hrst => cases hrst
  | idle _ hvalid => cases hvalid
  | start _ _ hp hb =>
    obtain rfl : b = Config.marker := hb
    rw [State.stepByte_marker hp]
    exact .start hp rfl
  | skip _ _ hp hb => rw [State.stepByte_noise hp hb]; exact .skip hp hb
  | lenlo _ _ hp => rw [State.stepByte_lenlo hp]; exact .lenlo hp
  | lenhiOk _ _ hp ha => rw [State.stepByte_lenhiOk hp ha]; exact .lenhiOk hp ha
  | lenhiRej _ _ hp ha => rw [State.stepByte_lenhiRej hp ha]; exact .lenhiRej hp ha
  | data _ _ hp he => rw [State.stepByte_data hp he]; exact .data hp he
  | dataLast _ _ hp he => rw [State.stepByte_dataLast hp he]; exact .dataLast hp he

/-- The state that follows in a rule is the byte-step function's. -/
theorem State.ByteCase.stepByte_eq {i : Instr} {t : State} (h : s.ByteCase b i t) : s.stepByte b = t := by
  cases h with
  | start hp hb => rw [hb, State.stepByte_marker hp]
  | skip hp hb => exact State.stepByte_noise hp hb
  | lenlo hp => exact State.stepByte_lenlo hp
  | lenhiOk hp ha => exact State.stepByte_lenhiOk hp ha
  | lenhiRej hp ha => exact State.stepByte_lenhiRej hp ha
  | data hp he => exact State.stepByte_data hp he
  | dataLast hp he => exact State.stepByte_dataLast hp he

/-- The selected operation's own meaning is the byte-step function (R110). -/
theorem exec_byteInstr (s : State) (b : Byte) : exec (s.byteInstr b) s = .next (s.stepByte b) := by
  have hcase := s.byteCase b
  generalize s.byteInstr b = i, s.stepByte b = t at hcase
  cases hcase <;> rfl

end Sys2Proof.Machine
end

section
/-! What one step does, event by event (spec 30_encoding.md rules R65 and R66; log entries 2 and 3). -/

namespace Sys2Proof.Machine

variable {s t : State} {b : Byte} {lo hi : Byte} {p : List Byte} {rest : List Event} {i : Instr}

/-- Where no frame is taken whole, the instruction is the one that the decoder's rules select. -/
theorem State.fetch_of_selects (hw : s.wholeFrame = none) (h : s.cycleWord.Selects s.len s.cnt i) : s.fetch = i := by
  rw [State.fetch_of_cycle hw, h.decodeCycle_eq]

theorem exec_reset (s : State) :
    exec .reset s = .next { s with phase := .waitStart, len := 0x0000, cnt := 0 } := rfl

theorem exec_idle (s : State) : exec .idle s = .next s := rfl

theorem exec_frame (lo hi : Byte) (p : List Byte) (s : State) :
    exec (.frame lo hi p) s = .next (s.runBytes (frameBytes lo hi p)) := rfl

theorem State.fetch_of_reset (h : s.input = .reset :: rest) : s.fetch = .reset :=
  State.fetch_of_selects (State.wholeFrame_none (by simp [h])) (.reset (by simp [State.cycleWord, h, resetNow]))

theorem step_of_reset (h : s.input = .reset :: rest) :
    step s = .next { s with phase := .waitStart, len := 0x0000, cnt := 0, input := rest } := by
  rw [step, State.fetch_of_reset h, State.advance_of_cycle (by simp [h]), exec_reset, h]
  rfl

/-- No byte is offered at a frame event, so a silent cycle is at none. -/
theorem head?_ne_frame_of_silence {es : List Event} (hoff : offered es = none) (lo hi : Byte) (p : List Byte) :
    es.head? ≠ some (.frame lo hi p) := by
  intro h
  obtain ⟨rest, rfl⟩ := List.head?_eq_some_iff.mp h
  cases hoff

/-- A cycle without reset and without a byte is IDLE: at an idle event and after the last event (R82, log entry 2). -/
theorem State.fetch_of_silence (hrst : resetNow s.input = false) (hoff : offered s.input = none) : s.fetch = .idle :=
  State.fetch_of_selects (State.wholeFrame_none (head?_ne_frame_of_silence hoff))
    (.idle hrst (by simp [State.cycleWord, hoff]))

theorem step_of_silence (hrst : resetNow s.input = false) (hoff : offered s.input = none) :
    step s = .next (s.setInput s.input.tail) := by
  rw [step, State.fetch_of_silence hrst hoff, State.advance_of_cycle (head?_ne_frame_of_silence hoff), exec_idle]

/-- After the last event a step changes nothing (log entry 2). -/
theorem step_of_noInput (h : s.input = []) : step s = .next s := by
  rw [step_of_silence (by simp [h, resetNow]) (by simp [h, offered]), h, List.tail_nil, ← h]
  rfl

theorem step_of_idle (h : s.input = .idle :: rest) : step s = .next (s.setInput rest) := by
  rw [step_of_silence (by simp [h, resetNow]) (by simp [h, offered]), h, List.tail_cons]

/-- A cycle that accepts a byte is the byte-step function (R110). -/
theorem step_of_byte_eq (h : s.input = .byte b :: rest) : step s = .next ((s.setInput rest).stepByte b) :=
  (step_of_byte h).trans (by rw [State.fetch_of_byte h]; exact exec_byteInstr (s.setInput rest) b)

theorem step_of_wholeFrame (hp : s.phase = .waitStart) (h : s.input = .frame lo hi p :: rest)
    (hl : p.length = payloadLength lo hi) : step s = .next ((s.setInput rest).runBytes (frameBytes lo hi p)) := by
  rw [step, State.fetch, State.wholeFrame_of_frame hp h hl, State.advance_of_frame hp h hl, exec_frame]

/-- Outside `WaitStart`, and where the payload has not the header's length, a frame event is not taken whole. -/
theorem State.wholeFrame_none_of_frame (h : s.input = .frame lo hi p :: rest)
    (hnot : s.phase ≠ .waitStart ∨ p.length ≠ payloadLength lo hi) : s.wholeFrame = none := by
  by_cases hp : s.phase = .waitStart
  · rcases hdec : decode (.wire (frameBytes lo hi p)) s.len s.cnt with _ | i
    · simp [State.wholeFrame, hp, h, hdec, Except.toOption]
    · obtain ⟨lo', hi', p', _, hl, hbytes⟩ := decode_wire_eq_ok hdec
      simp only [frameBytes, List.cons.injEq, true_and] at hbytes
      obtain ⟨rfl, rfl, rfl⟩ := hbytes
      exact absurd hl (hnot.resolve_left (not_not_intro hp))
  · exact State.wholeFrame_of_phase hp

/-- Where a byte is offered and no frame is taken whole, the cycle's operation is the one of that byte. -/
theorem State.fetch_of_offered (hw : s.wholeFrame = none) (hrst : resetNow s.input = false)
    (hoff : offered s.input = some b) : s.fetch = s.byteInstr b := by
  have hword : s.cycleWord = { rst := false, inValid := true, phase := s.phase, inData := b } := by
    simp [State.cycleWord, hrst, hoff]
  rw [State.fetch_of_cycle hw, hword, State.byteInstr]

/-- A frame event that is not taken whole gives its marker, and its other bytes stand as single bytes (log entry 3). -/
theorem step_of_split (h : s.input = .frame lo hi p :: rest)
    (hnot : s.phase ≠ .waitStart ∨ p.length ≠ payloadLength lo hi) :
    step s = .next ((s.setInput (byteEvents (lo :: hi :: p) ++ rest)).stepByte Config.marker) := by
  have hw := State.wholeFrame_none_of_frame h hnot
  have hadv : s.advance = s.setInput (byteEvents (lo :: hi :: p) ++ rest) := by
    rw [State.advance, hw, h]; rfl
  rw [step, State.fetch_of_offered hw (by simp [h, resetNow]) (by rw [h]; rfl), hadv]
  exact exec_byteInstr (s.setInput (byteEvents (lo :: hi :: p) ++ rest)) Config.marker

/-- Settles O25: the decoder selects the operation whose meaning the byte-step function has. -/
theorem acceptedByteIsTheStepFunction : Obligations.AcceptedByteIsTheStepFunction :=
  fun _ _ _ h => step_of_byte_eq h

theorem exec_total (i : Instr) (s : State) : ∃ t, exec i s = .next t := by
  cases i <;> exact ⟨_, rfl⟩

/-- Settles O26: every arm of `exec` answers a next state, and a step is one of them. -/
theorem nothingEverStops : Obligations.NothingEverStops :=
  ⟨exec_total, fun s => exec_total s.fetch s.advance⟩

/-- One rule per kind of step: what the inputs are, the instruction, and the state that follows. -/
inductive State.StepCase (s : State) : Instr → State → Prop
  | reset (rest : List Event) (hin : s.input = .reset :: rest) :
      StepCase s .reset { s with phase := .waitStart, len := 0x0000, cnt := 0, input := rest }
  | idle (hrst : resetNow s.input = false) (hoff : offered s.input = none) :
      StepCase s .idle (s.setInput s.input.tail)
  | byte (b : Byte) (es : List Event) (i : Instr) (t : State) (hrst : resetNow s.input = false)
      (hoff : offered s.input = some b)
      (htail : (∀ lo hi p, s.input.head? ≠ some (.frame lo hi p)) → es = s.input.tail)
      (hcase : (s.setInput es).ByteCase b i t) : StepCase s i t
  | frame (lo hi : Byte) (p : List Byte) (rest : List Event) (hp : s.phase = .waitStart)
      (hin : s.input = .frame lo hi p :: rest) (hl : p.length = payloadLength lo hi) :
      StepCase s (.frame lo hi p) ((s.setInput rest).runBytes (frameBytes lo hi p))

/-- Every step is one of these, with the instruction that is fetched. -/
theorem stepCase_of_step (h : step s = .next t) : s.StepCase s.fetch t := by
  have hnext : ∀ {u}, step s = .next u → u = t := fun hu => Host.Outcome.next.inj (hu.symm.trans h)
  rcases hin : s.input with _ | ⟨_ | _ | b | ⟨lo, hi, p⟩, rest⟩
  · have hrst : resetNow s.input = false := by simp [hin, resetNow]
    have hoff : offered s.input = none := by simp [hin, offered]
    rw [State.fetch_of_silence hrst hoff, ← hnext (step_of_silence hrst hoff)]
    exact .idle hrst hoff
  · rw [State.fetch_of_reset hin, ← hnext (step_of_reset hin)]
    exact .reset rest hin
  · have hrst : resetNow s.input = false := by simp [hin, resetNow]
    have hoff : offered s.input = none := by simp [hin, offered]
    rw [State.fetch_of_silence hrst hoff, ← hnext (step_of_silence hrst hoff)]
    exact .idle hrst hoff
  · rw [State.fetch_of_byte hin, ← hnext (step_of_byte_eq hin)]
    exact .byte b rest _ _ (by simp [hin, resetNow]) (by simp [hin, offered]) (by simp [hin])
      ((s.setInput rest).byteCase b)
  · by_cases hwhole : s.phase = .waitStart ∧ p.length = payloadLength lo hi
    · obtain ⟨hp, hl⟩ := hwhole
      rw [State.fetch, State.wholeFrame_of_frame hp hin hl, ← hnext (step_of_wholeFrame hp hin hl)]
      exact .frame lo hi p rest hp hin hl
    · have hnot : s.phase ≠ .waitStart ∨ p.length ≠ payloadLength lo hi := not_and_or.mp hwhole
      have hrst : resetNow s.input = false := by simp [hin, resetNow]
      have hoff : offered s.input = some Config.marker := by simp [hin, offered]
      rw [State.fetch_of_offered (State.wholeFrame_none_of_frame hin hnot) hrst hoff, ← hnext (step_of_split hin hnot)]
      exact .byte Config.marker (byteEvents (lo :: hi :: p) ++ rest) _ _ hrst hoff
        (fun hno => absurd (by rw [hin]; rfl) (hno lo hi p)) ((s.setInput _).byteCase Config.marker)

/-- What the input events cannot change, RESET keeps and every byte keeps, a step keeps. -/
theorem step_induction {P : State → Prop} (hinput : ∀ s es, P s → P (s.setInput es))
    (hreset : ∀ s, P s → P { s with phase := .waitStart, len := 0x0000, cnt := 0 })
    (hbyte : ∀ s b, P s → P (s.stepByte b)) (hs : P s) (h : step s = .next t) : P t := by
  have hcase := stepCase_of_step h
  generalize s.fetch = i at hcase
  cases hcase with
  | reset rest => exact hreset _ (hinput s rest hs)
  | idle => exact hinput s _ hs
  | byte b es i t _ _ _ hbc => exact hbc.stepByte_eq ▸ hbyte _ b (hinput s es hs)
  | frame lo hi p rest => exact State.runBytes_induction hbyte (hinput s rest hs) _

end Sys2Proof.Machine
end

section
/-! The invariant (spec 43_stream_properties.md sections 2 and 3, 20_memory.md section 1): what every byte keeps,
every step and every run keeps. -/

namespace Sys2Proof.Machine

variable {s t : State} {b : Byte}

theorem State.storePayload_keeps_wf (s : State) (b : Byte) (h : s.channels.wf) : (s.storePayload b).channels.wf :=
  s.chanWrite_keeps_wf _ b h

/-- The canonical form is kept by every byte, at reachable registers or not. -/
theorem State.stepByte_keeps_wf (s : State) (b : Byte) (h : s.channels.wf) : (s.stepByte b).channels.wf := by
  have hcase := s.byteCase b
  generalize s.byteInstr b = i, s.stepByte b = t at hcase
  cases hcase with
  | start | skip | lenlo | lenhiOk | lenhiRej => exact h
  | data | dataLast => exact s.storePayload_keeps_wf b h

/-- Settles O40: only `ChanWrite` touches the universe, and it keeps the form for every channel number. -/
theorem universeStaysCanonical : Obligations.UniverseStaysCanonical := fun _ _ hwf hstep =>
  step_induction (P := fun s => s.channels.wf) (fun _ _ h => h) (fun _ h => h)
    (fun s b h => s.stepByte_keeps_wf b h) hwf hstep

theorem reachable_waitLenHigh_iff (len : Len) (cnt : Cnt) :
    registersReachable .waitLenHigh len cnt = true ↔ len.toNat ≤ 255 ∧ cnt = 0 := by
  simp [registersReachable]

theorem reachable_waitPayload_iff (len : Len) (cnt : Cnt) :
    registersReachable .waitPayload len cnt = true ↔
      1 ≤ len.toNat ∧ len.toNat ≤ 512 ∧ cnt.toNat < len.toNat := by
  simp [registersReachable, and_assoc]

/-- A rejected length with a count of 0 is reachable in `WaitStart`, and so is a completed frame (R112). -/
theorem reachable_waitStart_of_rejected {len : Len} {cnt : Cnt} (ha : lenAccepted len = false) (hc : cnt = 0) :
    registersReachable .waitStart len cnt = true := by
  rcases (lenAccepted_false_iff len).mp ha with h | h <;> simp [registersReachable, hc, h]
  omega

theorem reachable_waitStart_of_completed {len : Len} {cnt : Cnt} (hmin : 1 ≤ len.toNat) (hmax : len.toNat ≤ 512)
    (hc : cnt.toNat = len.toNat) : registersReachable .waitStart len cnt = true := by
  simp [registersReachable, hmin, hmax, hc]

/-- The end-of-frame test as a test on numbers, whether it passes or not (R118). -/
theorem endOfFrame_eq_decide (cnt : Cnt) (len : Len) :
    endOfFrame cnt len = decide ((nextChan cnt).toNat = len.toNat) := by
  rw [Bool.eq_iff_iff, endOfFrame_iff, decide_eq_true_iff]
  exact setWidth_eq_len_iff _ _

/-- On reachable registers in `WaitPayload` the effective channel is the count's successor, and a channel of the
frame. -/
theorem nextChan_of_reachable {len : Len} {cnt : Cnt} (h : registersReachable .waitPayload len cnt = true) :
    (nextChan cnt).toNat = cnt.toNat + 1 ∧ 1 ≤ (nextChan cnt).toNat ∧ (nextChan cnt).toNat ≤ len.toNat ∧
      len.toNat ≤ 512 := by
  obtain ⟨hmin, hle, hmax⟩ := nextChan_bounds_of_reachable h
  obtain ⟨_, _, hlt⟩ := (reachable_waitPayload_iff len cnt).mp h
  exact ⟨nextChan_toNat (by omega), hmin, hle, hmax⟩

/-- Settles O34: the count is below the length, so the 10-bit sum does not wrap. -/
theorem effectiveChannelIsARealCell : Obligations.EffectiveChannelIsARealCell := by
  intro s hreach hp
  obtain ⟨hnext, hmin, hle, hmax⟩ := nextChan_of_reachable (hp ▸ hreach)
  exact ⟨hnext, hmin, hle, hmax, by rw [endOfFrame_eq_decide, decide_eq_true_iff, hnext]⟩

/-- The channel of a payload byte read in a state with the invariant exists. -/
theorem State.Inv.channelExists_nextChan (h : s.Inv) (hp : s.phase = .waitPayload) :
    channelExists (nextChan s.cnt).toNat = true := by
  obtain ⟨_, hmin, hle, hmax⟩ := nextChan_of_reachable (hp ▸ h.registers)
  exact (channelExists_iff _).mpr ⟨hmin, hle.trans hmax⟩

/-- A payload byte's write goes to a channel that exists, so the trace stays in range (R114). -/
theorem State.Inv.storePayload_writesInRange (h : s.Inv) (hp : s.phase = .waitPayload) (b : Byte) :
    ∀ w ∈ (s.storePayload b).trace, 1 ≤ w.chan.toNat ∧ w.chan.toNat ≤ 512 := by
  intro w hw
  rcases List.mem_append.mp (s.storePayload_trace b ▸ hw) with hw | hw
  · exact h.writesInRange w hw
  · obtain rfl := List.mem_singleton.mp hw
    exact (channelExists_iff _).mp (h.channelExists_nextChan hp)

/-- Every byte keeps the registers reachable (R112). -/
theorem State.Inv.stepByte_registers (h : s.Inv) (b : Byte) :
    registersReachable (s.stepByte b).phase (s.stepByte b).len (s.stepByte b).cnt = true := by
  have hreach := h.registers
  have hcase := s.byteCase b
  generalize s.byteInstr b = i, s.stepByte b = t at hcase
  cases hcase with
  | start => rfl
  | skip => exact hreach
  | lenlo hp =>
    have hcnt : s.cnt = 0 := by
      rw [hp] at hreach
      simp only [registersReachable, Bool.and_eq_true, beq_iff_eq] at hreach
      exact hreach.2
    refine (reachable_waitLenHigh_iff _ _).mpr ⟨?_, hcnt⟩
    rw [zextLen, BitVec.toNat_setWidth_of_le (by decide)]
    omega
  | lenhiOk _ ha =>
    obtain ⟨hmin, hmax⟩ := (lenAccepted_iff _).mp ha
    exact (reachable_waitPayload_iff _ _).mpr ⟨hmin, hmax, hmin⟩
  | lenhiRej hp ha =>
    obtain ⟨_, hcnt⟩ := (reachable_waitLenHigh_iff _ _).mp (hp ▸ hreach)
    exact reachable_waitStart_of_rejected ha hcnt
  | data hp he =>
    obtain ⟨_, hmin, hle, hmax⟩ := nextChan_of_reachable (hp ▸ hreach)
    have hne : (nextChan s.cnt).toNat ≠ s.len.toNat := by simpa [endOfFrame_eq_decide] using he
    rw [State.storePayload_phase, State.storePayload_len, State.storePayload_cnt, hp]
    exact (reachable_waitPayload_iff _ _).mpr ⟨hmin.trans hle, hmax, lt_of_le_of_ne hle hne⟩
  | dataLast hp he =>
    obtain ⟨_, hmin, hle, hmax⟩ := nextChan_of_reachable (hp ▸ hreach)
    have heq : (nextChan s.cnt).toNat = s.len.toNat := by simpa [endOfFrame_eq_decide] using he
    rw [State.resync_phase, State.resync_len, State.resync_cnt, State.storePayload_len, State.storePayload_cnt]
    exact reachable_waitStart_of_completed (hmin.trans hle) hmax heq

theorem State.Inv.stepByte (h : s.Inv) (b : Byte) : (s.stepByte b).Inv := by
  refine ⟨h.stepByte_registers b, s.stepByte_keeps_wf b h.universeWf, ?_⟩
  have hcase := s.byteCase b
  generalize s.byteInstr b = i, s.stepByte b = t at hcase
  cases hcase with
  | start | skip | lenlo | lenhiOk | lenhiRej => exact h.writesInRange
  | data hp | dataLast hp => exact h.storePayload_writesInRange hp b

theorem State.Inv.setInput (h : s.Inv) (es : List Event) : (s.setInput es).Inv :=
  ⟨h.registers, h.universeWf, h.writesInRange⟩

theorem State.Inv.clearRegisters (h : s.Inv) : State.Inv { s with phase := .waitStart, len := 0x0000, cnt := 0 } :=
  ⟨rfl, h.universeWf, h.writesInRange⟩

/-- Settles O36: RESET and every byte keep the invariant, and a step is made of them. -/
theorem invariantIsKeptByEveryStep : Obligations.InvariantIsKeptByEveryStep := fun _ _ hinv hstep =>
  step_induction (P := State.Inv) (fun _ es h => h.setInput es) (fun _ h => h.clearRegisters)
    (fun _ b h => h.stepByte b) hinv hstep

/-- Settles O37: no cell is written yet, no write issued, and the registers are those of `S0`. -/
theorem resetHasTheInvariant : Obligations.ResetHasTheInvariant :=
  fun _ => ⟨rfl, Memory.nil_wf, fun _ hw => absurd hw List.not_mem_nil⟩

/-- Every run from reset ends with the invariant. -/
theorem inv_of_run {es : List Event} {n : Nat}
    (h : Sys2Proof.core.run n { State.reset with input := es } = .next t) : t.Inv :=
  run_induction invariantIsKeptByEveryStep (resetHasTheInvariant es) h

/-- Settles O39: the range of the writes is part of the invariant. -/
theorem noWriteIsEverOutOfRange : Obligations.NoWriteIsEverOutOfRange :=
  fun _ _ _ h => (inv_of_run h).writesInRange

end Sys2Proof.Machine
end

section
/-! The universe as the fold of the write trace (spec 00_scope.md rule R10, 92_eei_decisions.md D22). -/

namespace Sys2Proof.Machine

variable {s t : State}

/-- The last write of a trace decides its own cell. -/
theorem foldWrites_append_singleton (base : Nat → Byte) (ws : List Write) (w : Write) (k : Nat) :
    foldWrites base (ws ++ [w]) k = if k = w.chan.toNat then w.value else foldWrites base ws k := by
  rw [foldWrites, List.foldl_append]
  rfl

/-- The invariant, and the universe is what the trace makes of the free content of epoch `e`. -/
structure State.FoldInv (e : Nat) (s : State) : Prop where
  /-- The invariant of the machine. -/
  inv : s.Inv
  /-- No new epoch has begun. -/
  epoch : s.epoch = e
  /-- Every channel is the fold of the trace. -/
  fold : ∀ k, s.readChannel k = foldWrites (Config.universeBase e) s.trace k

/-- The store of a payload byte extends trace and universe alike. -/
theorem State.FoldInv.storePayload_fold {e : Nat} (h : s.FoldInv e) (hp : s.phase = .waitPayload) (b : Byte) :
    (s.storePayload b).epoch = e ∧
      ∀ k, (s.storePayload b).readChannel k = foldWrites (Config.universeBase e) (s.storePayload b).trace k := by
  obtain ⟨hepoch, hsame, hother⟩ := s.chanWrite_existing b (h.inv.channelExists_nextChan hp)
  refine ⟨hepoch.trans h.epoch, fun k => ?_⟩
  rw [State.storePayload_trace, foldWrites_append_singleton, State.storePayload, State.setCnt_readChannel]
  split
  · next hk => rw [hk, hsame]
  · next hk => rw [hother k hk, h.fold k]

theorem State.FoldInv.stepByte {e : Nat} (h : s.FoldInv e) (b : Byte) : (s.stepByte b).FoldInv e := by
  have hinv := h.inv.stepByte b
  have hcase := s.byteCase b
  generalize s.byteInstr b = i, s.stepByte b = t at hcase hinv
  cases hcase with
  | start | skip | lenlo | lenhiOk | lenhiRej => exact ⟨hinv, h.epoch, h.fold⟩
  | data hp | dataLast hp =>
    obtain ⟨hepoch, hfold⟩ := h.storePayload_fold hp b
    exact ⟨hinv, hepoch, hfold⟩

theorem State.FoldInv.step {e : Nat} (h : s.FoldInv e) (hstep : step s = .next t) : t.FoldInv e :=
  step_induction (P := State.FoldInv e) (fun _ es h => ⟨h.inv.setInput es, h.epoch, h.fold⟩)
    (fun _ h => ⟨h.inv.clearRegisters, h.epoch, h.fold⟩) (fun _ b h => h.stepByte b) h hstep

/-- Settles O41: on states with the invariant every write goes to a channel that exists, so no new epoch begins and the
trace and the universe take the same write. -/
theorem universeIsTheFoldOfTheTrace : Obligations.UniverseIsTheFoldOfTheTrace := by
  refine ⟨fun s t hinv hfold hstep => ?_, fun es n t hrun => ?_⟩
  · have ht : t.FoldInv s.epoch := State.FoldInv.step ⟨hinv, rfl, hfold⟩ hstep
    exact ⟨ht.epoch, ht.epoch ▸ ht.fold⟩
  · have hreset : State.FoldInv 0 { State.reset with input := es } := ⟨resetHasTheInvariant es, rfl, fun _ => rfl⟩
    exact (run_induction (P := State.FoldInv 0) (fun _ _ h hstep => h.step hstep) hreset hrun).fold

end Sys2Proof.Machine
end

section
/-! The universe is never read (spec 20_memory.md rule R46 and section 8): a relation between two runs. -/

namespace Sys2Proof.Machine

variable {s s' t t' u u' : State}

/-- From `s` and `s'` two machines have come to `t` and `t'` with the same registers, the same remaining input and the
same new writes. -/
structure RunAlike (s s' t t' : State) : Prop where
  /-- The three registers agree. -/
  registers : sameRegisters t t'
  /-- The remaining input agrees. -/
  input : t.input = t'.input
  /-- The same writes have been issued. -/
  writes : ∃ ws, t.trace = s.trace ++ ws ∧ t'.trace = s'.trace ++ ws

theorem RunAlike.refl (hreg : sameRegisters s s') (hin : s.input = s'.input) : RunAlike s s' s s' :=
  ⟨hreg, hin, [], by simp⟩

theorem RunAlike.trans (h : RunAlike s s' t t') (h' : RunAlike t t' u u') : RunAlike s s' u u' := by
  obtain ⟨ws, hw, hw'⟩ := h.writes
  obtain ⟨vs, hv, hv'⟩ := h'.writes
  exact ⟨h'.registers, h'.input, ws ++ vs, by rw [hv, hw, List.append_assoc], by rw [hv', hw', List.append_assoc]⟩

/-- Two payload bytes are stored alike: the channel is computed from the count alone. -/
theorem RunAlike.storePayload (hreg : sameRegisters s s') (hin : s.input = s'.input) (b : Byte) :
    RunAlike s s' (s.storePayload b) (s'.storePayload b) := by
  obtain ⟨hp, hl, hc⟩ := hreg
  exact ⟨⟨by simpa using hp, by simpa using hl, by simp [hc]⟩, by simpa using hin, [⟨nextChan s.cnt, b⟩],
    s.storePayload_trace b, hc ▸ s'.storePayload_trace b⟩

theorem RunAlike.resync (h : RunAlike s s' t t') : RunAlike s s' t.resync t'.resync :=
  ⟨⟨rfl, h.registers.2⟩, h.input, h.writes⟩

/-- A byte acts alike on two states with the same registers: every condition and every new register value is computed
from the registers and the byte. -/
theorem RunAlike.stepByte (hreg : sameRegisters s s') (hin : s.input = s'.input) (b : Byte) :
    RunAlike s s' (s.stepByte b) (s'.stepByte b) := by
  obtain ⟨hp, hl, hc⟩ := hreg
  have hcase := s.byteCase b
  generalize s.byteInstr b = i, s.stepByte b = t at hcase
  cases hcase with
  | start h hb =>
    rw [hb, State.stepByte_marker (hp ▸ h)]
    exact ⟨⟨rfl, rfl, rfl⟩, hin, [], by simp⟩
  | skip h hb =>
    rw [State.stepByte_noise (hp ▸ h) hb]
    exact .refl ⟨hp, hl, hc⟩ hin
  | lenlo h =>
    rw [State.stepByte_lenlo (hp ▸ h)]
    exact ⟨⟨rfl, rfl, hc⟩, hin, [], by simp⟩
  | lenhiOk h ha =>
    rw [State.stepByte_lenhiOk (hp ▸ h) (hl ▸ ha), hl]
    exact ⟨⟨rfl, rfl, rfl⟩, hin, [], by simp⟩
  | lenhiRej h ha =>
    rw [State.stepByte_lenhiRej (hp ▸ h) (hl ▸ ha), hl]
    exact ⟨⟨rfl, rfl, hc⟩, hin, [], by simp⟩
  | data h he =>
    rw [State.stepByte_data (hp ▸ h) (hl ▸ hc ▸ he)]
    exact .storePayload ⟨hp, hl, hc⟩ hin b
  | dataLast h he =>
    rw [State.stepByte_dataLast (hp ▸ h) (hl ▸ hc ▸ he)]
    exact (RunAlike.storePayload ⟨hp, hl, hc⟩ hin b).resync

theorem RunAlike.runBytes (hreg : sameRegisters s s') (hin : s.input = s'.input) (bs : List Byte) :
    RunAlike s s' (s.runBytes bs) (s'.runBytes bs) := by
  induction bs generalizing s s' with
  | nil => exact .refl hreg hin
  | cons b bs ih =>
    have hb := RunAlike.stepByte hreg hin b
    exact hb.trans (ih hb.registers hb.input)

/-- One step from states that differ only in the universe and in past writes: the same kind of step, done alike. -/
theorem RunAlike.step (hreg : sameRegisters s s') (hin : s.input = s'.input) :
    ∃ t t', step s = .next t ∧ step s' = .next t' ∧ RunAlike s s' t t' := by
  have hset (es : List Event) : RunAlike s s' (s.setInput es) (s'.setInput es) := ⟨hreg, rfl, [], by simp⟩
  rcases h : s.input with _ | ⟨_ | _ | b | ⟨lo, hi, p⟩, rest⟩ <;> have h' := hin.symm.trans h
  · exact ⟨s, s', step_of_noInput h, step_of_noInput h', .refl hreg hin⟩
  · exact ⟨_, _, step_of_reset h, step_of_reset h', ⟨rfl, rfl, rfl⟩, rfl, [], by simp⟩
  · exact ⟨_, _, step_of_idle h, step_of_idle h', hset rest⟩
  · exact ⟨_, _, step_of_byte_eq h, step_of_byte_eq h',
      (hset rest).trans (.stepByte (hset rest).registers rfl b)⟩
  · by_cases hwhole : s.phase = .waitStart ∧ p.length = payloadLength lo hi
    · obtain ⟨hp, hlen⟩ := hwhole
      exact ⟨_, _, step_of_wholeFrame hp h hlen, step_of_wholeFrame (hreg.1 ▸ hp) h' hlen,
        (hset rest).trans (.runBytes (hset rest).registers rfl _)⟩
    · have hnot := not_and_or.mp hwhole
      exact ⟨_, _, step_of_split h hnot, step_of_split h' (hreg.1 ▸ hnot),
        (hset _).trans (.stepByte (hset _).registers rfl Config.marker)⟩

/-- Settles O50, by induction on the number of steps. -/
theorem universeIsNeverRead : Obligations.UniverseIsNeverRead := by
  intro n s s' t t' hreg hin h h'
  suffices RunAlike s s' t t' from ⟨this.registers, this.input, this.writes⟩
  induction n generalizing s s' with
  | zero =>
    cases h
    cases h'
    exact .refl hreg hin
  | succ n ih =>
    obtain ⟨u, u', hu, hu', halike⟩ := RunAlike.step hreg hin
    rw [run_succ_of_step n hu] at h
    rw [run_succ_of_step n hu'] at h'
    exact halike.trans (ih u u' halike.registers halike.input h h')

end Sys2Proof.Machine
end

section
/-! Runs of payload bytes (spec 43_stream_properties.md section 4, 60_exceptions.md rule R133). -/

namespace Sys2Proof.Machine

variable {s t u : State} {bs cs : List Byte}

theorem payloadWrites_cons (first : Nat) (b : Byte) (bs : List Byte) :
    payloadWrites first (b :: bs) = ⟨BitVec.ofNat 10 first, b⟩ :: payloadWrites (first + 1) bs := by
  simp [payloadWrites, List.mapIdx_cons, Nat.add_comm, Nat.add_left_comm]

theorem payloadWrites_append (first : Nat) (bs cs : List Byte) :
    payloadWrites first (bs ++ cs) = payloadWrites first bs ++ payloadWrites (first + bs.length) cs := by
  simp [payloadWrites, List.mapIdx_append, Nat.add_comm, Nat.add_left_comm]

/-- From `s` to `t` the bytes have been stored in the channels after the count: what moved, and what is as before. -/
structure PayloadStored (s : State) (bs : List Byte) (t : State) : Prop where
  /-- The length register stays. -/
  len : t.len = s.len
  /-- Every byte has been counted. -/
  cnt : t.cnt.toNat = s.cnt.toNat + bs.length
  /-- The input is not touched. -/
  input : t.input = s.input
  /-- No new epoch has begun. -/
  epoch : t.epoch = s.epoch
  /-- One write has been issued for each byte, in order. -/
  trace : t.trace = s.trace ++ payloadWrites (s.cnt.toNat + 1) bs
  /-- Each byte stands in its channel. -/
  stored : ∀ (i : Nat) (h : i < bs.length), t.readChannel (s.cnt.toNat + 1 + i) = bs[i]
  /-- Every other cell is as before. -/
  kept : ∀ k, k ≤ s.cnt.toNat ∨ s.cnt.toNat + bs.length < k → t.readChannel k = s.readChannel k

theorem PayloadStored.nil (s : State) : PayloadStored s [] s :=
  ⟨rfl, rfl, rfl, rfl, by simp [payloadWrites], fun _ h => absurd h (Nat.not_lt_zero _), fun _ _ => rfl⟩

theorem PayloadStored.append (h : PayloadStored s bs t) (h' : PayloadStored t cs u) :
    PayloadStored s (bs ++ cs) u where
  len := h'.len.trans h.len
  cnt := by rw [h'.cnt, h.cnt, List.length_append, Nat.add_assoc]
  input := h'.input.trans h.input
  epoch := h'.epoch.trans h.epoch
  trace := by
    rw [h'.trace, h.trace, h.cnt, payloadWrites_append, List.append_assoc, Nat.add_right_comm]
  stored i hi := by
    rw [List.length_append] at hi
    have hcnt := h.cnt
    by_cases hlt : i < bs.length
    · rw [h'.kept _ (by omega), h.stored i hlt, List.getElem_append_left hlt]
    · rw [List.getElem_append_right (by omega), ← h'.stored (i - bs.length) (by omega)]
      congr 1
      omega
  kept k hk := by
    rw [List.length_append] at hk
    have hcnt := h.cnt
    rw [h'.kept k (by omega), h.kept k (by omega)]

/-- One payload byte, where the channel after the count exists. -/
theorem PayloadStored.storePayload (b : Byte) (h : s.cnt.toNat < 512) :
    PayloadStored s [b] (s.storePayload b) := by
  have hnext : (nextChan s.cnt).toNat = s.cnt.toNat + 1 := nextChan_toNat (by omega)
  obtain ⟨hepoch, hsame, hother⟩ :=
    s.chanWrite_existing (ch := nextChan s.cnt) b ((channelExists_iff _).mpr (by omega))
  rw [hnext] at hsame hother
  refine ⟨s.storePayload_len b, hnext, s.storePayload_input b, hepoch, ?_, fun i hi => ?_, fun k hk => ?_⟩
  · rw [State.storePayload_trace, payloadWrites_cons, ← hnext, BitVec.ofNat_toNat, BitVec.setWidth_eq]
    rfl
  · obtain rfl : i = 0 := by simpa using hi
    exact hsame
  · exact hother k (by simp only [List.length_singleton] at hk; omega)

theorem PayloadStored.resync (h : PayloadStored s bs t) : PayloadStored s bs t.resync :=
  ⟨h.len, h.cnt, h.input, h.epoch, h.trace, h.stored, h.kept⟩

/-- One payload byte through the byte-step function: stored, and the phase is left when the length is reached. -/
theorem stepByte_payload (b : Byte) (hp : s.phase = .waitPayload) (hmax : s.len.toNat ≤ 512)
    (hlt : s.cnt.toNat < s.len.toNat) :
    PayloadStored s [b] (s.stepByte b) ∧
      (s.stepByte b).phase = if s.cnt.toNat + 1 = s.len.toNat then .waitStart else .waitPayload := by
  have hstored := PayloadStored.storePayload (s := s) b (by omega)
  have hend : endOfFrame s.cnt s.len = decide (s.cnt.toNat + 1 = s.len.toNat) := by
    rw [endOfFrame_eq_decide, nextChan_toNat (by omega)]
  by_cases hlast : s.cnt.toNat + 1 = s.len.toNat
  · rw [State.stepByte_dataLast hp (by simp [hend, hlast]), if_pos hlast]
    exact ⟨hstored.resync, rfl⟩
  · rw [State.stepByte_data hp (by simp [hend, hlast]), if_neg hlast]
    exact ⟨hstored, (s.storePayload_phase b).trans hp⟩

/-- A payload under way takes the bytes up to its length, whatever they are (R133). -/
theorem runBytes_payload (hp : s.phase = .waitPayload) (hmax : s.len.toNat ≤ 512) (hlt : s.cnt.toNat < s.len.toNat)
    (hle : s.cnt.toNat + bs.length ≤ s.len.toNat) :
    PayloadStored s bs (s.runBytes bs) ∧
      (s.runBytes bs).phase = if s.cnt.toNat + bs.length = s.len.toNat then .waitStart else .waitPayload := by
  induction bs generalizing s with
  | nil => exact ⟨.nil s, by rw [List.length_nil, Nat.add_zero, if_neg hlt.ne]; exact hp⟩
  | cons b bs ih =>
    obtain ⟨hstored, hphase⟩ := stepByte_payload b hp hmax hlt
    have hlen : (s.stepByte b).len.toNat = s.len.toNat := congrArg BitVec.toNat hstored.len
    have hcnt : (s.stepByte b).cnt.toNat = s.cnt.toNat + 1 := hstored.cnt
    rw [List.length_cons] at hle
    rw [State.runBytes_cons, List.length_cons]
    by_cases hlast : s.cnt.toNat + 1 = s.len.toNat
    · obtain rfl : bs = [] := List.length_eq_zero_iff.mp (by omega)
      exact ⟨hstored, by simpa using hphase⟩
    · rw [if_neg hlast] at hphase
      obtain ⟨hstored', hphase'⟩ := ih hphase (by omega) (by omega) (by omega)
      rw [hcnt, hlen] at hphase'
      exact ⟨hstored.append hstored', by rw [hphase', Nat.add_right_comm, Nat.add_assoc]⟩

/-- A payload that is not complete yet keeps the phase. -/
theorem runBytes_payload_partial (hp : s.phase = .waitPayload) (hmax : s.len.toNat ≤ 512)
    (hlt : s.cnt.toNat + bs.length < s.len.toNat) :
    PayloadStored s bs (s.runBytes bs) ∧ (s.runBytes bs).phase = .waitPayload := by
  obtain ⟨hstored, hphase⟩ := runBytes_payload (bs := bs) hp hmax (by omega) hlt.le
  exact ⟨hstored, hphase.trans (if_neg hlt.ne)⟩

/-- A payload that is complete ends in `WaitStart`. -/
theorem runBytes_payload_complete (hp : s.phase = .waitPayload) (hmax : s.len.toNat ≤ 512)
    (hlt : s.cnt.toNat < s.len.toNat) (heq : s.cnt.toNat + bs.length = s.len.toNat) :
    PayloadStored s bs (s.runBytes bs) ∧ (s.runBytes bs).phase = .waitStart := by
  obtain ⟨hstored, hphase⟩ := runBytes_payload hp hmax hlt heq.le
  exact ⟨hstored, hphase.trans (if_pos heq)⟩

end Sys2Proof.Machine
end

section
/-! Frames read in `WaitStart` (spec 43_stream_properties.md section 4). -/

namespace Sys2Proof.Machine

variable {s : State} {lo hi : Byte} {p : List Byte}

@[simp] theorem lowByte_zextLen (b : Byte) : lowByte (zextLen b) = b := by
  rw [lowByte, zextLen, BitVec.setWidth_setWidth_of_le _ (by decide), BitVec.setWidth_eq]

/-- The marker and the low byte read in `WaitStart`, whatever the registers held. -/
theorem runBytes_marker_low (hp : s.phase = .waitStart) (lo : Byte) :
    s.runBytes [Config.marker, lo] = { s with phase := .waitLenHigh, len := zextLen lo, cnt := 0 } := by
  rw [State.runBytes_cons, State.runBytes_cons, State.stepByte_marker hp, State.stepByte_lenlo rfl]
  rfl

/-- A frame's header leads to its payload with the length stored and the count cleared. -/
theorem runBytes_header_accepted (hp : s.phase = .waitStart) (ha : lenAccepted (hi ++ lo) = true) :
    s.runBytes [Config.marker, lo, hi] = { s with phase := .waitPayload, len := hi ++ lo, cnt := 0 } := by
  have happ : combineLen hi (lowByte (zextLen lo)) = hi ++ lo := by rw [lowByte_zextLen, combineLen_eq_append]
  rw [show [Config.marker, lo, hi] = [Config.marker, lo] ++ [hi] from rfl, State.runBytes_append,
    runBytes_marker_low hp, State.runBytes_cons, State.stepByte_lenhiOk rfl (happ ▸ ha), happ]
  rfl

/-- A rejected header leads back to `WaitStart` with the length stored and the count cleared. -/
theorem runBytes_header_rejected (hp : s.phase = .waitStart) (ha : lenAccepted (hi ++ lo) = false) :
    s.runBytes [Config.marker, lo, hi] = { s with phase := .waitStart, len := hi ++ lo, cnt := 0 } := by
  have happ : combineLen hi (lowByte (zextLen lo)) = hi ++ lo := by rw [lowByte_zextLen, combineLen_eq_append]
  rw [show [Config.marker, lo, hi] = [Config.marker, lo] ++ [hi] from rfl, State.runBytes_append,
    runBytes_marker_low hp, State.runBytes_cons, State.stepByte_lenhiRej rfl (happ ▸ ha), happ]
  rfl

theorem runBytes_frameBytes (s : State) (lo hi : Byte) (p : List Byte) :
    s.runBytes (frameBytes lo hi p) = (s.runBytes [Config.marker, lo, hi]).runBytes p := rfl

theorem payloadLength_of_accepted (ha : lenAccepted (hi ++ lo) = true) : payloadLength lo hi = (hi ++ lo).toNat := by
  rw [payloadLength, combineLen_eq_append, if_pos ha]

theorem payloadLength_of_rejected (ha : lenAccepted (hi ++ lo) = false) : payloadLength lo hi = 0 := by
  rw [payloadLength, combineLen_eq_append, ha]
  rfl

/-- A well-formed frame read in `WaitStart` stores its payload from channel 1 on and ends in `WaitStart`. -/
theorem runBytes_accepted_frame (hp : s.phase = .waitStart) (ha : lenAccepted (hi ++ lo) = true)
    (hl : p.length = (hi ++ lo).toNat) :
    PayloadStored { s with phase := .waitPayload, len := hi ++ lo, cnt := 0 } p (s.runBytes (frameBytes lo hi p)) ∧
      (s.runBytes (frameBytes lo hi p)).phase = .waitStart := by
  obtain ⟨hmin, hmax⟩ := (lenAccepted_iff _).mp ha
  rw [runBytes_frameBytes, runBytes_header_accepted hp ha]
  exact runBytes_payload_complete rfl hmax hmin ((Nat.zero_add _).trans hl)

/-- A whole frame, accepted or rejected, ends in `WaitStart` and has issued its payload's writes. -/
theorem runBytes_wholeFrame (hp : s.phase = .waitStart) (hl : p.length = payloadLength lo hi) :
    (s.runBytes (frameBytes lo hi p)).phase = .waitStart ∧
      (s.runBytes (frameBytes lo hi p)).trace = s.trace ++ payloadWrites 1 p := by
  rcases ha : lenAccepted (hi ++ lo) with _ | _
  · obtain rfl : p = [] := List.length_eq_zero_iff.mp (hl.trans (payloadLength_of_rejected ha))
    rw [runBytes_frameBytes, runBytes_header_rejected hp ha]
    exact ⟨rfl, by simp [payloadWrites]⟩
  · obtain ⟨hstored, hphase⟩ := runBytes_accepted_frame hp ha (hl.trans (payloadLength_of_accepted ha))
    exact ⟨hphase, hstored.trace⟩

/-- Settles O13: the header leads to the payload phase with a count of 0, and the payload is stored from there. -/
theorem frameAppliesItsPayload : Obligations.FrameAppliesItsPayload := by
  intro s lo hi p hp hmin hmax hl
  rw [← append_toNat] at hmin hmax hl
  obtain ⟨hstored, hphase⟩ := runBytes_accepted_frame hp ((lenAccepted_iff _).mpr ⟨hmin, hmax⟩) hl
  refine ⟨_, exec_frame lo hi p s, hphase, ?_, ?_, hstored.input, hstored.epoch, hstored.trace, fun i h => ?_,
    fun k hk => ?_⟩
  · rw [hstored.len, hl]
  · simpa using hstored.cnt
  · simpa [Nat.add_comm] using hstored.stored i h
  · exact hstored.kept k (by simpa using hk)

/-- Settles O14: the validator rejects the length, so the header alone is consumed. -/
theorem rejectedHeaderWritesNothing : Obligations.RejectedHeaderWritesNothing := by
  intro s lo hi hp hbad
  have ha : lenAccepted (hi ++ lo) = false := by
    rw [← append_toNat] at hbad
    rw [← Bool.not_eq_true, lenAccepted_iff]
    omega
  rw [exec_frame, runBytes_frameBytes, runBytes_header_rejected hp ha, State.runBytes_nil, hp]

end Sys2Proof.Machine
end

section
/-! Runs over byte events (spec 43_stream_properties.md sections 1 and 6): a byte a step. -/

namespace Sys2Proof.Machine

variable {s t : State} {bs : List Byte} {rest : List Event}

/-- A run over single bytes is the fold of the byte-step function (R111). -/
theorem run_byteEvents (h : s.input = byteEvents bs ++ rest) :
    Sys2Proof.core.run bs.length s = .next ((s.setInput rest).runBytes bs) := by
  induction bs generalizing s with
  | nil =>
    obtain rfl : s.input = rest := h
    rfl
  | cons b bs ih =>
    have hb : s.input = .byte b :: (byteEvents bs ++ rest) := h
    rw [List.length_cons, run_succ_of_step _ (step_of_byte_eq hb), ih (by simp), State.runBytes_cons,
      ← State.stepByte_setInput]
    rfl

/-- Settles O15: both are the fold of the byte-step function over the frame's bytes. -/
theorem frameEqualsItsCycles : Obligations.FrameEqualsItsCycles := by
  intro s lo hi p
  refine ⟨_, exec_frame lo hi p s, ?_⟩
  rw [← frameBytes_length lo hi p, run_byteEvents (s := { s with input := _ }) rfl]
  rfl

/-- Bytes other than the marker change nothing in `WaitStart`. -/
theorem runBytes_noise (hp : s.phase = .waitStart) (hbs : ∀ b ∈ bs, b ≠ Config.marker) : s.runBytes bs = s := by
  induction bs with
  | nil => rfl
  | cons b bs ih =>
    obtain ⟨hb, hbs⟩ := List.forall_mem_cons.mp hbs
    rw [State.runBytes_cons, State.stepByte_noise hp hb, ih hbs]

/-- Settles O42: the run is the fold, and each byte of it is skipped. -/
theorem noiseWithoutMarkerIsAbsorbed : Obligations.NoiseWithoutMarkerIsAbsorbed := by
  intro s ns rest hp hns hin
  rw [run_byteEvents hin, runBytes_noise (s := s.setInput rest) hp hns]
  rfl

/-- Settles O16, by induction on the frames: the noise is absorbed, and each frame is one step that issues its writes.
-/
theorem wellBehavedHostGetsExactlyItsWrites : Obligations.WellBehavedHostGetsExactlyItsWrites := by
  intro s fs rest hp hfs hin
  induction fs generalizing s with
  | nil => exact ⟨s, rfl, hp, hin, by simp⟩
  | cons f fs ih =>
    obtain ⟨ns, lo, hi, p⟩ := f
    obtain ⟨⟨hns, hl⟩, hfs⟩ := List.forall_mem_cons.mp hfs
    generalize hmore : fs.flatMap (fun f => byteEvents f.1 ++ [Event.frame f.2.1 f.2.2.1 f.2.2.2]) ++ rest = more at ih
    have hin' : s.input = byteEvents ns ++ .frame lo hi p :: more := by simpa [← hmore] using hin
    have hnoise := noiseWithoutMarkerIsAbsorbed s ns _ hp hns hin'
    have hframe := step_of_wholeFrame (s := { s with input := .frame lo hi p :: more }) hp rfl hl
    obtain ⟨hphase, htrace⟩ := runBytes_wholeFrame (s := s.setInput more) hp hl
    obtain ⟨t, hrun, ht, htin, httrace⟩ := ih _ hphase hfs (State.runBytes_input _ _)
    refine ⟨t, ?_, ht, htin, ?_⟩
    · rw [List.map_cons, List.sum_cons, Nat.add_assoc, run_add _ hnoise, Nat.add_comm,
        run_succ_of_step _ hframe]
      exact hrun
    · rw [httrace, htrace, List.flatMap_cons, List.append_assoc]
      rfl

end Sys2Proof.Machine
end

section
/-! Stalls, recovery and silence (spec 60_exceptions.md rule R133 and section 5, 43_stream_properties.md section 6). -/

namespace Sys2Proof.Machine

variable {s t : State} {bs : List Byte} {rest : List Event}

/-- A run over a part of the byte events leaves the others in the input. -/
theorem run_byteEvents_take (h : s.input = byteEvents bs ++ rest) {j : Nat} (hj : j ≤ bs.length) :
    Sys2Proof.core.run j s = .next ((s.setInput (byteEvents (bs.drop j) ++ rest)).runBytes (bs.take j)) := by
  have hsplit : s.input = byteEvents (bs.take j) ++ (byteEvents (bs.drop j) ++ rest) := by
    rw [h, ← List.append_assoc, byteEvents, byteEvents, byteEvents, ← List.map_append, List.take_append_drop]
  have hrun := run_byteEvents hsplit
  rwa [List.length_take_of_le hj] at hrun

/-- Idle cycles pass without a trace. -/
theorem run_idles {n : Nat} (h : s.input = List.replicate n .idle ++ rest) :
    Sys2Proof.core.run n s = .next (s.setInput rest) := by
  induction n generalizing s with
  | zero =>
    obtain rfl : s.input = rest := h
    rfl
  | succ n ih =>
    rw [run_succ_of_step n (step_of_idle (rest := List.replicate n .idle ++ rest) h)]
    exact ih rfl

/-- Settles O44: the silence passes, and the bytes are payload up to the length. -/
theorem stalledPayloadTakesTheNextBytes : Obligations.StalledPayloadTakesTheNextBytes := by
  intro s n bs rest hreach hp heq hin
  obtain ⟨_, hmax, hlt⟩ := (reachable_waitPayload_iff _ _).mp (hp ▸ hreach)
  have hsilence := run_idles (n := n) (hin.trans (List.append_assoc ..))
  refine ⟨hsilence, fun j hj => ?_, ?_⟩
  · rw [run_add j hsilence, run_byteEvents_take rfl hj.le]
    refine ⟨_, rfl, (runBytes_payload_partial (s := s.setInput (byteEvents (bs.drop j) ++ rest)) hp hmax ?_).2⟩
    rw [List.length_take_of_le hj.le]
    exact heq ▸ Nat.add_lt_add_left hj _
  · obtain ⟨hstored, hphase⟩ := runBytes_payload_complete (s := s.setInput rest) hp hmax hlt heq
    rw [run_add bs.length hsilence, run_byteEvents rfl]
    exact ⟨_, rfl, hphase, hstored.len, hstored.cnt.trans heq, hstored.input, hstored.trace⟩

/-- Settles O48: the frame event is taken byte by byte, and all its bytes are payload. -/
theorem stalledPayloadSwallowsAFrame : Obligations.StalledPayloadSwallowsAFrame := by
  intro s lo hi p rest hreach hp hlt hin
  obtain ⟨_, hmax, _⟩ := (reachable_waitPayload_iff _ _).mp (hp ▸ hreach)
  have hrun : Sys2Proof.core.run (3 + p.length) s = .next ((s.setInput rest).runBytes (frameBytes lo hi p)) := by
    rw [show 3 + p.length = (lo :: hi :: p).length + 1 by simp; omega,
      run_succ_of_step _ (step_of_split hin (.inl (by simp [hp]))), run_byteEvents (rest := rest) (by simp),
      ← State.stepByte_setInput]
    rfl
  obtain ⟨hstored, hphase⟩ := runBytes_payload_partial (s := s.setInput rest) (bs := frameBytes lo hi p) hp hmax
    (by rw [frameBytes_length]; exact (Nat.add_assoc ..) ▸ hlt)
  refine ⟨_, hrun, hphase, hstored.len, ?_, hstored.input, hstored.trace⟩
  rw [hstored.cnt, frameBytes_length]
  exact (Nat.add_assoc ..).symm

/-- A high byte from `0x03` up is rejected whatever the low byte is (R67). -/
theorem lenAccepted_false_of_high {hi lo : Byte} (h : 3 ≤ hi.toNat) : lenAccepted (combineLen hi lo) = false := by
  rw [lenAccepted_false_iff, combineLen_eq_append, append_toNat]
  omega

/-- Two zero bytes read in `WaitLenLow` are the length 0, which is rejected. -/
theorem runBytes_zero_length (hp : s.phase = .waitLenLow) :
    s.runBytes [0x00, 0x00] = { s with phase := .waitStart, len := 0x0000 } := by
  have hzero : combineLen 0x00 (lowByte (zextLen 0x00)) = 0x0000 := by decide
  have ha : lenAccepted (combineLen 0x00 (lowByte (zextLen 0x00))) = false := by rw [hzero]; decide
  have hhigh := State.stepByte_lenhiRej (s := { s with phase := .waitLenHigh, len := zextLen 0x00 }) rfl ha
  rw [State.runBytes_cons, State.runBytes_cons, State.runBytes_nil, State.stepByte_lenlo hp, hhigh, hzero]

/-- Settles O45: the combined length is 0 in the first case and above 512 in the second. -/
theorem headerPhasesAreLeftByRejectedLengths : Obligations.HeaderPhasesAreLeftByRejectedLengths := by
  refine fun s b rest => ⟨fun hp hin => ?_, fun hp hb hin => ?_⟩
  · have hrun := run_byteEvents (bs := [0x00, 0x00]) hin
    rw [runBytes_zero_length (s := s.setInput rest) hp] at hrun
    exact hrun
  · have hstep := step_of_byte_eq hin
    rw [State.stepByte_lenhiRej (s := s.setInput rest) hp (lenAccepted_false_of_high hb)] at hstep
    exact ⟨_, run_succ_of_step 0 hstep, rfl, rfl, rfl⟩

/-- Zero bytes are noise in `WaitStart`, so once there the parser stays. -/
theorem runBytes_zeros_of_waitStart (n : Nat) (hp : s.phase = .waitStart) :
    (s.runBytes (List.replicate n 0x00)).phase = .waitStart := by
  rw [runBytes_noise hp (fun b hb => by rw [List.eq_of_mem_replicate hb]; decide), hp]

/-- Zero bytes complete a payload of at most so many bytes. -/
theorem runBytes_zeros_of_waitPayload (n : Nat) (hp : s.phase = .waitPayload) (hmax : s.len.toNat ≤ 512)
    (hlt : s.cnt.toNat < s.len.toNat) (hn : s.len.toNat ≤ s.cnt.toNat + n) :
    (s.runBytes (List.replicate n 0x00)).phase = .waitStart := by
  obtain ⟨m, rfl⟩ : ∃ m, n = (s.len.toNat - s.cnt.toNat) + m := ⟨_, (Nat.add_sub_cancel' (by omega)).symm⟩
  rw [List.replicate_add, State.runBytes_append]
  refine runBytes_zeros_of_waitStart m (runBytes_payload_complete hp hmax hlt ?_).2
  rw [List.length_replicate]
  omega

/-- A zero high byte makes a length of the stored low byte alone: rejected if that is 0, else a payload below 256. -/
theorem runBytes_zeros_of_waitLenHigh (n : Nat) (hp : s.phase = .waitLenHigh) (hn : 255 ≤ n) :
    (s.runBytes (List.replicate (n + 1) 0x00)).phase = .waitStart := by
  have hlow : (combineLen 0x00 (lowByte s.len)).toNat ≤ 255 := by
    have := (lowByte s.len).isLt
    rw [combineLen_eq_append, append_toNat]
    simp
    omega
  rw [List.replicate_succ, State.runBytes_cons]
  rcases ha : lenAccepted (combineLen 0x00 (lowByte s.len)) with _ | _
  · rw [State.stepByte_lenhiRej hp ha]
    exact runBytes_zeros_of_waitStart n rfl
  · obtain ⟨hmin, hmax⟩ := (lenAccepted_iff _).mp ha
    rw [State.stepByte_lenhiOk hp ha]
    exact runBytes_zeros_of_waitPayload n rfl hmax hmin (hlow.trans (hn.trans (Nat.le_add_left ..)))

/-- From every phase with reachable registers 512 zero bytes are enough. -/
theorem runBytes_flush (hreach : registersReachable s.phase s.len s.cnt = true) :
    (s.runBytes (List.replicate 512 0x00)).phase = .waitStart := by
  rcases hp : s.phase with _ | _ | _ | _
  · exact runBytes_zeros_of_waitStart 512 hp
  · rw [show List.replicate 512 (0x00 : Byte) = [0x00, 0x00] ++ List.replicate 510 0x00 from rfl, State.runBytes_append,
      runBytes_zero_length hp]
    exact runBytes_zeros_of_waitStart 510 rfl
  · exact runBytes_zeros_of_waitLenHigh 511 hp (by decide)
  · obtain ⟨_, hmax, hlt⟩ := (reachable_waitPayload_iff _ _).mp (hp ▸ hreach)
    exact runBytes_zeros_of_waitPayload 512 hp hmax hlt (by omega)

/-- Settles O46: 512 zero bytes are enough from every phase, and a payload of 512 bytes takes any fewer as data. -/
theorem flushResynchronises : Obligations.FlushResynchronises := by
  refine ⟨fun s rest hreach hin => ?_, fun s bs rest hp hlen hcnt hlt hin => ?_⟩
  · have hrun := run_byteEvents hin
    rw [List.length_replicate] at hrun
    exact ⟨_, hrun, runBytes_flush (s := s.setInput rest) hreach, State.runBytes_input _ _⟩
  · have hpartial := runBytes_payload_partial (s := s.setInput rest) (bs := bs) hp (by simp [hlen])
      (by simpa [hlen, hcnt] using hlt)
    exact ⟨_, run_byteEvents hin, hpartial.2⟩

/-- One period of the stream: the rejected length 0xFF02, two bytes of noise, a marker and a low byte. -/
theorem runBytes_period (hp : s.phase = .waitLenHigh) (hlen : s.len = 0x0002) (hcnt : s.cnt = 0) :
    s.runBytes [0xFF, 0x02, 0x00, 0xFF, 0x02] = s := by
  have hrej : s.stepByte 0xFF = { s with phase := .waitStart, len := 0xFF02 } := by
    rw [State.stepByte_lenhiRej hp (lenAccepted_false_of_high (by decide)), hlen]
    rfl
  have hnoise : (s.stepByte 0xFF).runBytes [0x02, 0x00] = s.stepByte 0xFF :=
    runBytes_noise (by rw [hrej]) (by decide)
  calc s.runBytes [0xFF, 0x02, 0x00, 0xFF, 0x02]
    _ = ((s.stepByte 0xFF).runBytes [0x02, 0x00]).runBytes [Config.marker, 0x02] := rfl
    _ = { s with phase := .waitLenHigh, len := zextLen 0x02, cnt := 0 } := by
      rw [hnoise, runBytes_marker_low (by rw [hrej]), hrej]
    _ = s := by
      rw [← hp, ← hcnt, show zextLen 0x02 = s.len from hlen.symm]

/-- Settles O47, by induction on the number of periods. -/
theorem periodicStreamNeverRecovers : Obligations.PeriodicStreamNeverRecovers := by
  intro n s rest hp hlen hcnt hin
  have hperiods : ∀ n, (s.setInput rest).runBytes (List.replicate n [0xFF, 0x02, 0x00, 0xFF, 0x02]).flatten =
      s.setInput rest := by
    intro n
    induction n with
    | zero => rfl
    | succ n ih =>
      rw [List.replicate_succ, List.flatten_cons, State.runBytes_append,
        runBytes_period (s := s.setInput rest) hp hlen hcnt, ih]
  have hrun := run_byteEvents hin
  rw [hperiods, List.length_flatten, List.map_replicate, List.sum_replicate] at hrun
  rw [Nat.mul_comm]
  exact hrun

/-- What a single cycle's event does, whatever events follow it. -/
theorem exists_step_of_isCycle (s : State) {e : Event} (he : e.isCycle = true) :
    ∃ u : State, ∀ es, step { s with input := e :: es } = .next (u.setInput es) := by
  cases e with
  | reset => exact ⟨{ s with phase := .waitStart, len := 0x0000, cnt := 0 }, fun es => step_of_reset rfl⟩
  | idle => exact ⟨s, fun es => step_of_idle rfl⟩
  | byte b => exact ⟨s.stepByte b, fun es => (step_of_byte_eq rfl).trans (by rw [← State.stepByte_setInput]; rfl)⟩
  | frame => cases he

/-- Settles O43, by induction on the events: an idle cycle drops out, and any other event acts alike in both runs. -/
theorem idleCyclesMakeNoDifference : Obligations.IdleCyclesMakeNoDifference := by
  intro s es hes
  induction es generalizing s with
  | nil => rfl
  | cons e es ih =>
    obtain ⟨he, hes⟩ := List.forall_mem_cons.mp hes
    by_cases hidle : e = .idle
    · rw [hidle, List.filter_cons_of_neg (by simp), ← ih s hes, List.length_cons]
      exact run_succ_of_step es.length (step_of_idle rfl)
    · obtain ⟨u, hu⟩ := exists_step_of_isCycle s he
      rw [List.filter_cons_of_pos (by simpa using hidle), List.length_cons, List.length_cons,
        run_succ_of_step _ (hu _), run_succ_of_step _ (hu _)]
      exact ih u hes

end Sys2Proof.Machine
end

section
/-! The reachable registers (spec 43_stream_properties.md section 2): each is reached by a header and a part of its
payload. -/

namespace Sys2Proof.Machine

variable {len : Len} {cnt : Cnt}

/-- A length is its high byte in front of its low byte. -/
theorem exists_bytes_of_len (len : Len) : ∃ hi lo : Byte, len = hi ++ lo :=
  ⟨len.extractLsb' 8 8, len.extractLsb' 0 8, by
    rw [BitVec.extractLsb'_append_extractLsb'_eq_extractLsb' (start₁ := 0) (len₁ := 8) rfl, BitVec.extractLsb'_eq_self]⟩

/-- Some byte list leads from reset to these registers. -/
def ReachedByBytes (p : Phase) (len : Len) (cnt : Cnt) : Prop :=
  ∃ bs : List Byte, (State.reset.runBytes bs).phase = p ∧ (State.reset.runBytes bs).len = len ∧
    (State.reset.runBytes bs).cnt = cnt

/-- A header and part of its payload reach `WaitPayload` with that count. -/
theorem reachedByBytes_waitPayload (hmin : 1 ≤ len.toNat) (hmax : len.toNat ≤ 512) (hlt : cnt.toNat < len.toNat) :
    ReachedByBytes .waitPayload len cnt := by
  obtain ⟨hi, lo, rfl⟩ := exists_bytes_of_len len
  have ha : lenAccepted (hi ++ lo) = true := (lenAccepted_iff _).mpr ⟨hmin, hmax⟩
  refine ⟨frameBytes lo hi (List.replicate cnt.toNat 0x00), ?_⟩
  rw [runBytes_frameBytes, runBytes_header_accepted rfl ha]
  obtain ⟨hstored, hphase⟩ := runBytes_payload_partial
    (s := { State.reset with phase := .waitPayload, len := hi ++ lo, cnt := 0 }) (bs := List.replicate cnt.toNat 0x00)
    rfl hmax (by simpa using hlt)
  exact ⟨hphase, hstored.len, BitVec.eq_of_toNat_eq (by simpa using hstored.cnt)⟩

/-- A whole frame reaches `WaitStart` with `cnt = len`. -/
theorem reachedByBytes_completed (hmin : 1 ≤ len.toNat) (hmax : len.toNat ≤ 512) (heq : cnt.toNat = len.toNat) :
    ReachedByBytes .waitStart len cnt := by
  obtain ⟨hi, lo, rfl⟩ := exists_bytes_of_len len
  obtain ⟨hstored, hphase⟩ := runBytes_accepted_frame (s := State.reset) (p := List.replicate cnt.toNat 0x00) rfl
    ((lenAccepted_iff _).mpr ⟨hmin, hmax⟩) (by simpa using heq)
  exact ⟨_, hphase, hstored.len, BitVec.eq_of_toNat_eq (by simpa using hstored.cnt)⟩

/-- A rejected header reaches `WaitStart` with its length and a count of 0. -/
theorem reachedByBytes_rejected (ha : lenAccepted len = false) : ReachedByBytes .waitStart len 0 := by
  obtain ⟨hi, lo, rfl⟩ := exists_bytes_of_len len
  refine ⟨[Config.marker, lo, hi], ?_⟩
  rw [runBytes_header_rejected rfl ha]
  exact ⟨rfl, rfl, rfl⟩

theorem reachedByBytes_of_reachable {p : Phase} (h : registersReachable p len cnt = true) :
    ReachedByBytes p len cnt := by
  cases p with
  | waitStart =>
    simp only [registersReachable, Bool.or_eq_true, Bool.and_eq_true, beq_iff_eq, decide_eq_true_iff] at h
    obtain ⟨rfl, hrej⟩ | ⟨⟨hmin, hmax⟩, heq⟩ := h
    · exact reachedByBytes_rejected ((lenAccepted_false_iff _).mpr hrej)
    · exact reachedByBytes_completed hmin hmax heq
  | waitLenLow =>
    simp only [registersReachable, Bool.and_eq_true, beq_iff_eq] at h
    obtain ⟨rfl, rfl⟩ := h
    exact ⟨[Config.marker], rfl, rfl, rfl⟩
  | waitLenHigh =>
    obtain ⟨hle, rfl⟩ := (reachable_waitLenHigh_iff _ _).mp h
    refine ⟨[Config.marker, lowByte len], ?_⟩
    rw [runBytes_marker_low rfl]
    refine ⟨rfl, BitVec.eq_of_toNat_eq ?_, rfl⟩
    simp [zextLen, lowByte]
    omega
  | waitPayload =>
    obtain ⟨hmin, hmax, hlt⟩ := (reachable_waitPayload_iff _ _).mp h
    exact reachedByBytes_waitPayload hmin hmax hlt

/-- Settles O38: one direction is the invariant along the run, the other a byte list for each of the registers. -/
theorem reachableRegistersAreExactlyThese : Obligations.ReachableRegistersAreExactlyThese := by
  refine fun p len cnt => ⟨fun h => ?_, fun ⟨bs, t, hrun, hp, hl, hc⟩ => ?_⟩
  · obtain ⟨bs, hp, hl, hc⟩ := reachedByBytes_of_reachable h
    exact ⟨bs, _, run_byteEvents (rest := []) (List.append_nil _).symm, hp, hl, hc⟩
  · rw [← hp, ← hl, ← hc]
    exact (inv_of_run hrun).registers

end Sys2Proof.Machine
end

section
/-! What a step does to the phase (spec 10_state.md sections 2 and 3, 30_encoding.md rule R70). -/

namespace Sys2Proof.Machine

variable {s t : State} {i : Instr}

/-- Settles O27: each rule of a step names its edge and the edge's condition. -/
theorem phaseFollowsTheGraph : Obligations.PhaseFollowsTheGraph := by
  intro s t hstep
  have hcase := stepCase_of_step hstep
  generalize s.fetch = i at hcase
  cases hcase with
  | reset rest hin => exact ⟨rfl, by simp [State.cycleWord, hin, resetNow]⟩
  | idle hrst hoff => exact ⟨rfl, hrst, hoff⟩
  | frame lo hi p rest hp hin hl => exact ⟨hp, by simp [hin], (runBytes_wholeFrame (s := s.setInput rest) hp hl).1⟩
  | byte b es i t hrst hoff htail hbc =>
    cases hbc with
    | start hp hb => exact ⟨hp, hoff.trans (congrArg some hb), rfl⟩
    | skip hp hb => exact ⟨hp, hoff, hb, hp⟩
    | lenlo hp => exact ⟨hp, hoff, rfl⟩
    | lenhiOk hp ha => exact ⟨hp, hoff, ha, rfl⟩
    | lenhiRej hp ha => exact ⟨hp, hoff, ha, rfl⟩
    | data hp he =>
      exact ⟨hp, hoff, mt (endOfFrame_iff _ _).mpr (Bool.eq_false_iff.mp he), (State.storePayload_phase _ b).trans hp⟩
    | dataLast hp he => exact ⟨hp, hoff, (endOfFrame_iff _ _).mp he, rfl⟩

/-- Settles O28: outside `WaitStart` the decoder does not ask whether the byte is the marker, and `0xFF` as a high
byte is always rejected. -/
theorem markerIsRecognisedInWaitStartOnly : Obligations.MarkerIsRecognisedInWaitStartOnly := by
  intro s rest hin
  have hfetch : s.fetch = s.byteInstr 0xFF := State.fetch_of_byte hin
  have hcase := s.byteCase 0xFF
  rw [hfetch]
  generalize s.byteInstr 0xFF = i, s.stepByte 0xFF = t at hcase
  cases hcase with
  | start hp => simp [hp]
  | skip _ hb => exact absurd rfl hb
  | lenlo hp => simp [hp]
  | lenhiOk hp ha => exact absurd ha (by rw [lenAccepted_false_of_high (by decide)]; decide)
  | lenhiRej hp => simp [hp]
  | data hp => simp [hp]
  | dataLast hp => simp [hp]

/-- Settles O29: of all the rules, only LENHI_OK's leads into `WaitPayload` from another phase. -/
theorem payloadIsEnteredByTheValidatorAlone : Obligations.PayloadIsEnteredByTheValidatorAlone := by
  intro s t hstep hs ht
  have hcase := stepCase_of_step hstep
  generalize s.fetch = i at hcase
  cases hcase with
  | reset => cases ht
  | idle => exact absurd ht hs
  | frame lo hi p rest hp _ hl =>
    cases (runBytes_wholeFrame (s := s.setInput rest) hp hl).1.symm.trans ht
  | byte b es i t _ _ _ hbc =>
    cases hbc with
    | start => cases ht
    | skip => exact absurd ht hs
    | lenlo => cases ht
    | lenhiOk _ ha =>
      obtain ⟨hmin, hmax⟩ := (lenAccepted_iff _).mp ha
      exact ⟨⟨b, rfl⟩, hmin, hmax, rfl⟩
    | lenhiRej => cases ht
    | data hp => exact absurd hp hs
    | dataLast hp => exact absurd hp hs

theorem frameActive_iff (p : Phase) : frameActive p = true ↔ p = .waitPayload := by
  simp [frameActive]

theorem frameActive_false_iff (p : Phase) : frameActive p = false ↔ p ≠ .waitPayload := by
  rw [Ne, ← frameActive_iff, Bool.not_eq_true]

/-- `WaitPayload` is left by RESET and by DATA_LAST alone. -/
theorem fetch_of_leaving_waitPayload (hstep : step s = .next t) (hs : s.phase = .waitPayload)
    (ht : t.phase ≠ .waitPayload) : s.fetch = .reset ∨ ∃ b, s.fetch = .dataLast b := by
  have hcase := stepCase_of_step hstep
  generalize s.fetch = i at hcase
  cases hcase with
  | reset => exact .inl rfl
  | idle => exact absurd hs ht
  | frame _ _ _ _ hp => cases hp.symm.trans hs
  | byte b es i t _ _ _ hbc =>
    cases hbc with
    | start hp | skip hp | lenlo hp | lenhiOk hp | lenhiRej hp => cases hp.symm.trans hs
    | data => exact absurd (((s.setInput es).storePayload_phase b).trans hs) ht
    | dataLast => exact .inr ⟨b, rfl⟩

/-- Settles O30: `frame_active` is 1 in `WaitPayload` and nowhere else, which LENHI_OK alone enters. -/
theorem frameActiveChangesOnlyAtFrameEdges : Obligations.FrameActiveChangesOnlyAtFrameEdges := by
  intro s t hstep
  simp only [frameActive_iff, frameActive_false_iff]
  exact ⟨fun hs ht => (payloadIsEnteredByTheValidatorAlone s t hstep hs ht).1, fetch_of_leaving_waitPayload hstep⟩

end Sys2Proof.Machine
end

section
/-! The write port and the error classes (spec 10_state.md rule R32, 20_memory.md rules R46 and R54, 60_exceptions.md
rules R131 and R132). -/

namespace Sys2Proof.Machine

variable {s t : State} {b : Byte} {i : Instr}

theorem State.outputs_write_of_reset (hrst : s.cycleWord.rst = true) : s.outputs.write = none := by
  simp [State.outputs, hrst]

theorem State.outputs_write_of_silence (hoff : offered s.input = none) : s.outputs.write = none := by
  simp [State.outputs, State.cycleWord, hoff]

theorem State.outputs_write_of_offered (hrst : resetNow s.input = false) (hoff : offered s.input = some b) :
    s.outputs.write = if s.phase = .waitPayload then some ⟨nextChan s.cnt, b⟩ else none := by
  simp [State.outputs, State.cycleWord, hrst, hoff, nextChan]

theorem State.outputs_wrValid_iff (s : State) :
    s.outputs.wrValid = true ↔ s.cycleWord.rst = false ∧ s.cycleWord.inValid = true ∧ s.phase = .waitPayload := by
  simp [Outputs.wrValid, State.outputs, and_assoc]

theorem State.storePayload_setInput (s : State) (es : List Event) (b : Byte) :
    (s.setInput es).storePayload b = (s.storePayload b).setInput es := by
  rw [State.storePayload, State.storePayload, State.chanWrite_setInput]
  rfl

/-- A step of one cycle shows no write and does none, or it stores the offered byte as a payload byte. -/
theorem port_of_step (hhead : ∀ lo hi p, s.input.head? ≠ some (.frame lo hi p)) (hstep : step s = .next t) :
    (s.outputs.write = none ∧ t.trace = s.trace ∧ ∀ k, t.readChannel k = s.readChannel k) ∨
    ∃ b, s.phase = .waitPayload ∧ offered s.input = some b ∧ s.outputs.write = some ⟨nextChan s.cnt, b⟩ ∧
      t.trace = (s.storePayload b).trace ∧ ∀ k, t.readChannel k = (s.storePayload b).readChannel k := by
  have hcase := stepCase_of_step hstep
  generalize s.fetch = i at hcase
  cases hcase with
  | reset rest hin =>
    exact .inl ⟨State.outputs_write_of_reset (by simp [State.cycleWord, hin, resetNow]), rfl, fun _ => rfl⟩
  | idle _ hoff => exact .inl ⟨State.outputs_write_of_silence hoff, rfl, fun _ => rfl⟩
  | frame lo hi p rest _ hin => exact absurd (by rw [hin]; rfl) (hhead lo hi p)
  | byte b es i t hrst hoff _ hbc =>
    have hwrite := State.outputs_write_of_offered hrst hoff
    cases hbc with
    | start hp | skip hp | lenlo hp | lenhiOk hp | lenhiRej hp =>
      exact .inl ⟨hwrite.trans (if_neg (by rw [← State.setInput_phase s es, hp]; decide)), rfl, fun _ => rfl⟩
    | data hp | dataLast hp =>
      rw [State.storePayload_setInput]
      exact .inr ⟨b, hp, hoff, hwrite.trans (if_pos hp), rfl, fun _ => rfl⟩

/-- Settles O31: where the port shows a write, the step stores it, and elsewhere the trace is kept. -/
theorem writePortShowsTheIssuedWrite : Obligations.WritePortShowsTheIssuedWrite := by
  intro s t hhead hstep
  refine ⟨?_, s.outputs_wrValid_iff⟩
  rcases port_of_step hhead hstep with ⟨hwrite, htrace, _⟩ | ⟨b, _, _, hwrite, htrace, _⟩
  · rw [hwrite, htrace, Option.toList_none, List.append_nil]
  · rw [hwrite, htrace, State.storePayload_trace, Option.toList_some]

/-- Settles O32: the rules of the other operations name neither the trace nor the universe. -/
theorem onlyPayloadOperationsWrite : Obligations.OnlyPayloadOperationsWrite := by
  intro s t hstep hdata hlast hframe
  have hcase := stepCase_of_step hstep
  generalize s.fetch = i at hcase hdata hlast hframe
  cases hcase with
  | reset | idle => exact ⟨rfl, rfl, fun _ => rfl⟩
  | frame lo hi p => exact absurd rfl (hframe lo hi p)
  | byte b es i t _ _ _ hbc =>
    cases hbc with
    | start | skip | lenlo | lenhiOk | lenhiRej => exact ⟨rfl, rfl, fun _ => rfl⟩
    | data => exact absurd rfl (hdata b)
    | dataLast => exact absurd rfl (hlast b)

/-- A select line is on for the channel of the write on the port, and for no number that is no channel (R54). -/
theorem Outputs.sel_iff (o : Outputs) (k : Nat) :
    o.sel k = true ↔ ∃ w, o.write = some w ∧ channelExists k = true ∧ w.chan.toNat = k := by
  rcases h : o.write with _ | w <;> simp [Outputs.sel, h]

theorem Outputs.sel_of_write_none {o : Outputs} (h : o.write = none) (k : Nat) : o.sel k = false := by
  simp [Outputs.sel, h]

/-- Settles O33: the lines are read off the one write on the port, which with the invariant goes to a channel that
exists; a step without a write keeps every cell. -/
theorem oneHotSelectIsTheWritePort : Obligations.OneHotSelectIsTheWritePort := by
  intro s
  refine ⟨fun j k hj hk => ?_, Bool.eq_false_iff.mpr fun h0 => ?_, fun hvalid k => ?_, fun t hinv hhead hstep k => ?_⟩
  · obtain ⟨w, hw, _, hj⟩ := (Outputs.sel_iff _ _).mp hj
    obtain ⟨w', hw', _, hk⟩ := (Outputs.sel_iff _ _).mp hk
    rw [← hj, ← hk, Option.some.inj (hw.symm.trans hw')]
  · obtain ⟨_, _, h0, _⟩ := (Outputs.sel_iff _ _).mp h0
    exact absurd h0 (by decide)
  · exact Outputs.sel_of_write_none (by simpa [Outputs.wrValid] using hvalid) k
  · rcases port_of_step hhead hstep with ⟨hwrite, _, hread⟩ | ⟨b, hp, hoff, hwrite, _, hread⟩
    · rw [Outputs.sel_of_write_none hwrite k]
      exact ⟨nofun, fun _ => hread k⟩
    · have hexists := hinv.channelExists_nextChan hp
      have hsel : s.outputs.sel k = true ↔ k = (nextChan s.cnt).toNat := by
        rw [Outputs.sel_iff, hwrite]
        exact ⟨fun ⟨w, hw, _, hk⟩ => by rw [← hk, ← Option.some.inj hw], fun hk => ⟨_, rfl, hk ▸ hexists, hk.symm⟩⟩
      obtain ⟨_, hsame, hother⟩ := s.chanWrite_existing b hexists
      rw [Bool.eq_false_iff, Ne, hsel, hoff, hread k]
      exact ⟨fun hk => hk ▸ congrArg some hsame, fun hk => hother k hk⟩

/-- A step of one cycle that notes a class is SKIP or LENHI_REJ, and only `WaitPayload` issues writes. -/
theorem note_of_step (hhead : ∀ lo hi p, s.input.head? ≠ some (.frame lo hi p)) (hstep : step s = .next t) :
    noteOf s.fetch = none ∨
    (noteOf s.fetch = some .eDesync ∧ s.phase ≠ .waitPayload ∧ t = { s with input := s.input.tail }) ∨
    (noteOf s.fetch = some .eLen ∧ s.phase ≠ .waitPayload ∧ ∃ b, offered s.input = some b ∧
      t = { s with phase := .waitStart, len := combineLen b (lowByte s.len), input := s.input.tail }) := by
  have hcase := stepCase_of_step hstep
  generalize s.fetch = i at hcase
  cases hcase with
  | reset | idle => exact .inl rfl
  | frame lo hi p rest _ hin => exact absurd (by rw [hin]; rfl) (hhead lo hi p)
  | byte b es i t _ hoff htail hbc =>
    obtain rfl := htail hhead
    cases hbc with
    | start | lenlo | lenhiOk | data | dataLast => exact .inl rfl
    | skip hp => exact .inr (.inl ⟨rfl, by rw [← State.setInput_phase s s.input.tail, hp]; decide, rfl⟩)
    | lenhiRej hp => exact .inr (.inr ⟨rfl, by rw [← State.setInput_phase s s.input.tail, hp]; decide, b, hoff, rfl⟩)

/-- Settles O35: the noted class tells the operation, and neither of the two is an operation of `WaitPayload`. -/
theorem errorClassesAreSilent : Obligations.ErrorClassesAreSilent := by
  intro s t hhead hstep
  have hvalid := s.outputs_wrValid_iff
  rcases note_of_step hhead hstep with hnote | ⟨hnote, hp, ht⟩ | ⟨hnote, hp, ht⟩
  · exact ⟨fun h => absurd (hnote.symm.trans h) (by decide), fun h => absurd (hnote.symm.trans h) (by decide),
      fun _ => hnote⟩
  · exact ⟨fun _ => ht, fun h => absurd (hnote.symm.trans h) (by decide), fun h => absurd (hvalid.mp h).2.2 hp⟩
  · exact ⟨fun h => absurd (hnote.symm.trans h) (by decide), fun _ => ht, fun h => absurd (hvalid.mp h).2.2 hp⟩

/-- Whether a new epoch begins is decided by the channel number alone. -/
theorem State.chanWrite_epoch (s : State) (ch : Chan) (v : Byte) :
    (s.chanWrite ch v).epoch = if channelExists ch.toNat then s.epoch else s.epoch + 1 := by
  unfold State.chanWrite
  split <;> rfl

/-- The registers, the input, the epoch and the channels written agree: all that a byte's value could steer. -/
structure SameButValues (t t' : State) : Prop where
  /-- The three registers agree. -/
  registers : sameRegisters t t'
  /-- The remaining input agrees. -/
  input : t.input = t'.input
  /-- The same family of free values is in force. -/
  epoch : t.epoch = t'.epoch
  /-- The traces name the same channels. -/
  channels : t.trace.map Write.chan = t'.trace.map Write.chan

theorem storePayload_sameButValues (s : State) (b b' : Byte) : SameButValues (s.storePayload b) (s.storePayload b') :=
  ⟨⟨by simp, by simp, by simp⟩, by simp, by simp [State.storePayload, State.chanWrite_epoch], by simp⟩

/-- The end-of-frame test does not see the byte, so both bytes are stored by the same operation. -/
theorem stepByte_sameButValues (hp : s.phase = .waitPayload) (b b' : Byte) :
    SameButValues (s.stepByte b) (s.stepByte b') := by
  obtain ⟨hreg, hinput, hepoch, hchannels⟩ := storePayload_sameButValues s b b'
  rcases he : endOfFrame s.cnt s.len with _ | _
  · rw [State.stepByte_data hp he, State.stepByte_data hp he]
    exact ⟨hreg, hinput, hepoch, hchannels⟩
  · rw [State.stepByte_dataLast hp he, State.stepByte_dataLast hp he]
    exact ⟨⟨rfl, hreg.2⟩, hinput, hepoch, hchannels⟩

/-- Settles O49: both steps are the byte-step function on the same state. -/
theorem payloadValueSteersNothing : Obligations.PayloadValueSteersNothing := by
  intro s t t' b b' rest hp ht ht'
  have hstep (c : Byte) : step { s with input := .byte c :: rest } = .next ((s.setInput rest).stepByte c) :=
    step_of_byte_eq rfl
  obtain rfl : (s.setInput rest).stepByte b = t := Host.Outcome.next.inj ((hstep b).symm.trans ht)
  obtain rfl : (s.setInput rest).stepByte b' = t' := Host.Outcome.next.inj ((hstep b').symm.trans ht')
  obtain ⟨hreg, hinput, hepoch, hchannels⟩ := stepByte_sameButValues (s := s.setInput rest) hp b b'
  exact ⟨hreg, hinput, hepoch, hchannels⟩

end Sys2Proof.Machine
end

section
/-! The remaining operations one at a time, and the fetch (spec 40_sync.md rule R82, 41_length.md rules R90 and R92,
70_reset_and_hazards.md rule R150, 30_encoding.md rule R65; log entries 2, 3 and 5). -/

namespace Sys2Proof.Machine

variable {s : State} {b : Byte} {rest : List Event}

/-- Settles O1: `rst` alone selects RESET, whatever byte is on offer. -/
theorem resetClearsRegistersOnly : Obligations.ResetClearsRegistersOnly := by
  refine fun s rest => ⟨exec_reset s, fun hin => ⟨State.fetch_of_reset hin, step_of_reset hin, ?_, by rw [hin]; rfl⟩⟩
  simp [State.outputs, State.cycleWord, hin, resetNow]

/-- Settles O2: the reset state's registers, outputs and cells are evaluated. -/
theorem resetStateHoldsTheStatedValues : Obligations.ResetStateHoldsTheStatedValues :=
  ⟨rfl, rfl, rfl, rfl, rfl, fun _ => rfl⟩

/-- Settles O3: an idle event offers no byte, so the decoder selects IDLE. -/
theorem idleChangesNothing : Obligations.IdleChangesNothing := by
  refine fun s rest => ⟨exec_idle s, fun hin => ?_⟩
  have hrst : resetNow s.input = false := by simp [hin, resetNow]
  have hoff : offered s.input = none := by simp [hin, offered]
  refine ⟨State.fetch_of_silence hrst hoff, step_of_idle hin, ?_⟩
  simp [State.outputs, State.cycleWord, hrst, hoff]

/-- Settles O4: without an event there is neither a reset nor a byte. -/
theorem endOfInputIsIdle : Obligations.EndOfInputIsIdle := fun s hin =>
  ⟨State.fetch_of_silence (by simp [hin, resetNow]) (by simp [hin, offered]), step_of_noInput hin⟩

/-- Settles O7: in `WaitLenLow` the decoder asks nothing about the byte. -/
theorem lenloStoresTheLowByte : Obligations.LenloStoresTheLowByte := by
  refine fun s b rest => ⟨rfl, fun hp hin => ?_⟩
  have hfetch : s.fetch = .lenlo b := by rw [State.fetch_of_byte hin, hp]; rfl
  have hword : s.cycleWord.toBits = 0x5#4 ++ b := by
    rw [State.cycleWord_of_byte hin, toBits_of_accepted, hp]; rfl
  refine ⟨hword, hfetch, ?_, State.outputs_of_byte hin (by simp [hp]), rfl⟩
  rw [step_of_byte hin, hfetch]

theorem exec_lenhiRej (b : Byte) (s : State) :
    exec (.lenhiRej b) s = .next { s with len := b ++ s.len.extractLsb' 0 8, phase := .waitStart } := by
  rw [← lowByte_eq_extractLsb', ← combineLen_eq_append]
  rfl

/-- Settles O9: a length of 0 or above 512 fails the validator, so the decoder selects LENHI_REJ. -/
theorem lenhiRejDiscardsTheHeader : Obligations.LenhiRejDiscardsTheHeader := by
  refine fun s b rest => ⟨exec_lenhiRej b s, fun hp hin hbad => ?_⟩
  have ha : ¬lenAccepted (b ++ s.len.extractLsb' 0 8) = true := by rw [lenAccepted_iff]; omega
  have hfetch : s.fetch = .lenhiRej b := (State.fetch_in_waitLenHigh hp hin).trans (if_neg ha)
  refine ⟨State.toBits_in_waitLenHigh hp hin, hfetch, ?_, State.outputs_of_byte hin (by simp [hp]), rfl, rfl⟩
  rw [step_of_byte hin, hfetch]

/-- A payload byte for a channel that does not exist leaves every cell at the free value of a new epoch (U1). -/
theorem State.storePayload_stray (s : State) (b : Byte) (h : (s.cnt + 1).toNat = 0 ∨ 512 < (s.cnt + 1).toNat)
    (k : Nat) : (s.storePayload b).readChannel k = Config.universeBase (s.epoch + 1) k := by
  have hno : ¬channelExists (nextChan s.cnt).toNat = true := by
    rw [channelExists_iff, nextChan]; omega
  exact s.chanWrite_stray b (Bool.eq_false_iff.mpr hno) k

/-- Settles O12: DATA is the store, whose channel does not exist here. -/
theorem strayWriteFreesTheUniverse : Obligations.StrayWriteFreesTheUniverse := fun s b h =>
  ⟨_, exec_data b s, s.storePayload_phase b, s.storePayload_len b, rfl, s.storePayload_input b, s.storePayload_trace b,
    s.storePayload_stray b h⟩

/-- Settles O51: the end-of-frame test alone tells DATA from DATA_LAST, and both store. -/
theorem strayPayloadByteFreesTheUniverse : Obligations.StrayPayloadByteFreesTheUniverse := by
  intro s b rest hp hin hstray
  have hunreachable : registersReachable s.phase s.len s.cnt = false := by
    refine Bool.eq_false_iff.mpr fun hreach => ?_
    have := nextChan_bounds_of_reachable (hp ▸ hreach)
    omega
  have hfetch := State.fetch_in_waitPayload hp hin
  simp only [endOfFrame_iff] at hfetch
  refine ⟨hunreachable, hfetch, State.outputs_in_waitPayload hp hin, ?_⟩
  have hstep := step_of_byte hin
  rw [hfetch] at hstep
  have hkept := (s.setInput rest).storePayload_stray b hstray
  by_cases hlast : (s.cnt + 1).setWidth 16 = s.len
  · rw [if_pos hlast] at hstep ⊢
    exact ⟨_, hstep, rfl, (s.setInput rest).storePayload_len b, rfl, (s.setInput rest).storePayload_input b,
      (s.setInput rest).storePayload_trace b, hkept⟩
  · rw [if_neg hlast] at hstep ⊢
    exact ⟨_, hstep, ((s.setInput rest).storePayload_phase b).trans hp, (s.setInput rest).storePayload_len b, rfl,
      (s.setInput rest).storePayload_input b, (s.setInput rest).storePayload_trace b, hkept⟩

/-- Settles O17: the cycle word is read back from its bits, and a frame event that is not taken whole acts as its marker
with the other bytes after it. -/
theorem stepRunsTheDecodedInstruction : Obligations.StepRunsTheDecodedInstruction := by
  refine ⟨fun s i hhead hdec => ?_, fun s lo hi p rest hin => ⟨fun hp hwf => ?_, fun hnot => ?_⟩⟩
  · have hi : decodeCycle s.cycleWord s.len s.cnt = i :=
      Except.ok.inj ((decode_toBits s.cycleWord s.len s.cnt).symm.trans hdec)
    rw [step, State.fetch_of_cycle (State.wholeFrame_none hhead), hi, State.advance_of_cycle hhead]
    rfl
  · exact step_of_wholeFrame hp hin ((wellFormed_frame_iff lo hi p).mp hwf)
  · rw [wellFormed_frame_iff] at hnot
    exact (step_of_split hin hnot).trans
      (step_of_byte_eq (s := { s with input := byteEvents (frameBytes lo hi p) ++ rest }) rfl).symm

end Sys2Proof.Machine
end
